-- ==== Sys2Proof/Word.lean ====
section
/-! DEFINITION. The value types every other file uses (spec/00_scope.md R12): the 16-bit host data word and
address, the 8-bit input symbol, the bit and the three-valued signal level. -/

namespace Sys2Proof

/-- A host data word, a host address and a command word: `DW = AW = 16` bits (R6, R38, R55). -/
abbrev Word := BitVec 16

/-- `Sym`: one 8-bit input character code, the content of a cell of `IN` (R12, R16). -/
abbrev Sym := BitVec 8

/-- `Bit`: `false` is 0 and `true` is 1 (R12). -/
abbrev Bit := Bool

/-- `Level`: exactly the three values `-1`, `0`, `+1` (R12, 90_conflicts.md C9). The fourth 2-bit code never occurs
(R36, 93_implementation_defined.md U7), so the type is too small to hold it. -/
inductive Level where
  /-- the level `-1` -/
  | neg
  /-- the level `0` -/
  | zero
  /-- the level `+1` -/
  | pos
  deriving DecidableEq, Repr

end Sys2Proof
end

