-- ==== Sys2Proof/Syntax.lean ====
section
/-! DEFINITION. The command set, whole: one constructor for each of the seventeen rows of spec/opcode_table.json
(30_encoding.md R61). No command has an operand field (R60), so no constructor has an argument. -/

namespace Sys2Proof

/-- The LCEC command set, version 1 (R2, R61). -/
inductive Instr where
  /-- `CLR`, 0x0000 (R108) -/
  | clr
  /-- `LENC.NRZL`, 0x0010 (R70) -/
  | lencNrzl
  /-- `LENC.NRZI`, 0x0011 (R71) -/
  | lencNrzi
  /-- `LENC.RZ`, 0x0012 (R72) -/
  | lencRz
  /-- `LENC.MAN`, 0x0013 (R73) -/
  | lencMan
  /-- `LENC.DMAN`, 0x0014 (R74) -/
  | lencDman
  /-- `LENC.AMI`, 0x0015 (R75) -/
  | lencAmi
  /-- `LENC.PST`, 0x0016 (R76) -/
  | lencPst
  /-- `ECRUN.H`, 0x0020 (R106) -/
  | ecrunH
  /-- `ECRUN.C`, 0x0021 (R107) -/
  | ecrunC
  /-- `HENC`, 0x0030 (R90) -/
  | henc
  /-- `CENC`, 0x0031 (R98) -/
  | cenc
  /-- `HCOR.C`, 0x0040 (R91) -/
  | hcorC
  /-- `CDET.C`, 0x0041 (R99) -/
  | cdetC
  /-- `HCOR.E`, 0x0048 (R92) -/
  | hcorE
  /-- `CDET.E`, 0x0049 (R100) -/
  | cdetE
  /-- `INJ`, 0x0050 (R103) -/
  | inj
  deriving DecidableEq, Repr

end Sys2Proof
end

