-- ==== Sys2Proof/WellFormed.lean ====
section
/-! DEFINITION. Which terms are well formed. A command has no operand field (30_encoding.md R60), so every `Instr` is
well formed; the checks that can fail are those on the command WORD that the host writes (R56 to R59), one
named check for each way in which R64 lets a word be no command. -/

namespace Sys2Proof

/-- No command carries an operand that could be out of range (R60): every one is well formed. -/
def Instr.wellFormed : Instr → Bool
  | .clr => true
  | .lencNrzl => true
  | .lencNrzi => true
  | .lencRz => true
  | .lencMan => true
  | .lencDman => true
  | .lencAmi => true
  | .lencPst => true
  | .ecrunH => true
  | .ecrunC => true
  | .henc => true
  | .cenc => true
  | .hcorC => true
  | .cdetC => true
  | .hcorE => true
  | .cdetE => true
  | .inj => true

/-- `RSV`, bits 15:8, must be 0 (R56). -/
def wordReservedClear (w : Word) : Bool := w.toNat / 256 == 0

/-- `OPC`, bits 7:4, must be one of the six groups 0 to 5 (R57). -/
def wordGroupKnown (w : Word) : Bool := w.toNat / 16 % 16 ≤ 5

/-- `SEL`, bits 3:0, must be a value its group gives a reading to: 0 in `CTL` and `INJ` (R57), a technique 0 to 6 in
`LENC` (R58), a method 0 or 1 in `ECRUN` and `ECENC`, and in `ECDEC` a method 0 or 1 in the low three bits (R59). -/
def wordSelectorKnown (w : Word) : Bool :=
  match w.toNat / 16 % 16 with
  | 0 => w.toNat % 16 == 0
  | 1 => w.toNat % 16 ≤ 6
  | 2 => w.toNat % 16 ≤ 1
  | 3 => w.toNat % 16 ≤ 1
  | 4 => w.toNat % 8 ≤ 1
  | 5 => w.toNat % 16 == 0
  | _ => true

/-- A command word is well formed when it passes the three checks; these are the seventeen words of R61. -/
def wordWellFormed (w : Word) : Bool :=
  wordReservedClear w && wordGroupKnown w && wordSelectorKnown w

end Sys2Proof
end

