-- ==== Sys2Proof/Decode.lean ====
section
/-! DEFINITION. Decoding of the 16-bit command word, total on all 65536 words and rejecting by name (30_encoding.md R63,
R64), and after it the encoder (R56 to R59, R61). A command is one word (R55, R65); it is delivered by a host write and
never stored in memory, so there is no byte order to decode (R48). -/

namespace Sys2Proof

/-- Why a word is no command, by name, with the fields the group's own text still needs (R64). Every rejected word is
executed all the same: `Machine.execRejected` gives the effect R63 states for it. -/
inductive Rejection where
  /-- the illegal class: `RSV`, `OPC`, or the `SEL` of `CTL` or `INJ` (R64, R116) -/
  | illegalCommand
  /-- `OPC = 1` with `TECH` in 7..15 (R64, R114) -/
  | unsupportedTechnique (tech : BitVec 4)
  /-- `OPC = 2` with `METH` in 2..15 (R64, R115) -/
  | unsupportedRunMethod (meth : BitVec 4)
  /-- `OPC = 3` with `METH` in 2..15 (R64, R115) -/
  | unsupportedEncodeMethod (meth : BitVec 4)
  /-- `OPC = 4` with `METH` in 2..7; `src` is `SEL[3]` (R59, R64, R115) -/
  | unsupportedDecodeMethod (src : BitVec 1) (meth : BitVec 3)
  deriving DecidableEq, Repr

/-- `RSV`, bits 15:8 (R56). -/
def fieldRsv (w : Word) : BitVec 8 := w.extractLsb' 8 8

/-- `OPC`, bits 7:4 (R56). -/
def fieldOpc (w : Word) : BitVec 4 := w.extractLsb' 4 4

/-- `SEL`, bits 3:0 (R56); it is `TECH` in group `LENC` and `METH` in groups `ECRUN` and `ECENC` (R58, R59). -/
def fieldSel (w : Word) : BitVec 4 := w.extractLsb' 0 4

/-- `SRC = SEL[3]` of group `ECDEC` (R59). -/
def fieldSrc (w : Word) : BitVec 1 := w.extractLsb' 3 1

/-- `METH = SEL[2:0]` of group `ECDEC` (R59). -/
def fieldDecodeMeth (w : Word) : BitVec 3 := w.extractLsb' 0 3

/-- Group `LENC`: `TECH` picks the technique (R58). -/
def decodeTechnique (tech : BitVec 4) : Except Rejection Instr :=
  match tech.toNat with
  | 0 => .ok .lencNrzl
  | 1 => .ok .lencNrzi
  | 2 => .ok .lencRz
  | 3 => .ok .lencMan
  | 4 => .ok .lencDman
  | 5 => .ok .lencAmi
  | 6 => .ok .lencPst
  | _ => .error (.unsupportedTechnique tech)

/-- Group `ECRUN`: `METH` is all of `SEL` (R59). -/
def decodeRunMethod (meth : BitVec 4) : Except Rejection Instr :=
  match meth.toNat with
  | 0 => .ok .ecrunH
  | 1 => .ok .ecrunC
  | _ => .error (.unsupportedRunMethod meth)

/-- Group `ECENC`: `METH` is all of `SEL` (R59). -/
def decodeEncodeMethod (meth : BitVec 4) : Except Rejection Instr :=
  match meth.toNat with
  | 0 => .ok .henc
  | 1 => .ok .cenc
  | _ => .error (.unsupportedEncodeMethod meth)

/-- Group `ECDEC`: `SRC` picks the frame and `METH` the codec (R59). -/
def decodeDecodeMethod (src : BitVec 1) (meth : BitVec 3) : Except Rejection Instr :=
  match src.toNat, meth.toNat with
  | 0, 0 => .ok .hcorC
  | 0, 1 => .ok .cdetC
  | _, 0 => .ok .hcorE
  | _, 1 => .ok .cdetE
  | _, _ => .error (.unsupportedDecodeMethod src meth)

/-- The decoder, in the order of tests of R63. -/
def decode (w : Word) : Except Rejection Instr :=
  if fieldRsv w ≠ 0#8 then .error .illegalCommand
  else
    match (fieldOpc w).toNat with
    | 0 => if fieldSel w = 0#4 then .ok .clr else .error .illegalCommand
    | 1 => decodeTechnique (fieldSel w)
    | 2 => decodeRunMethod (fieldSel w)
    | 3 => decodeEncodeMethod (fieldSel w)
    | 4 => decodeDecodeMethod (fieldSrc w) (fieldDecodeMeth w)
    | 5 => if fieldSel w = 0#4 then .ok .inj else .error .illegalCommand
    | _ => .error .illegalCommand

/-- A command word from its group and selector, `RSV = 0` (R56). -/
def commandWord (opc sel : BitVec 4) : Word := 0#8 ++ opc ++ sel

/-- The encoder, from the `OPC` and `SEL` columns of R61. -/
def encode : Instr → Word
  | .clr => commandWord 0 0
  | .lencNrzl => commandWord 1 0
  | .lencNrzi => commandWord 1 1
  | .lencRz => commandWord 1 2
  | .lencMan => commandWord 1 3
  | .lencDman => commandWord 1 4
  | .lencAmi => commandWord 1 5
  | .lencPst => commandWord 1 6
  | .ecrunH => commandWord 2 0
  | .ecrunC => commandWord 2 1
  | .henc => commandWord 3 0
  | .cenc => commandWord 3 1
  | .hcorC => commandWord 4 0
  | .cdetC => commandWord 4 1
  | .hcorE => commandWord 4 8
  | .cdetE => commandWord 4 9
  | .inj => commandWord 5 0

/-- The command word whose bits, as spec/opcode_table.json numbers them, are `w` with every bit from `nbits` on
zero. The table's numbering is R56's: bit 0 is the least significant bit of the one word. -/
def tableWord (nbits w : Nat) : Word := BitVec.ofNat 16 (w % 2 ^ nbits)

/-- What the decoder reads from a row's word. A value that is longer than one command word is no command (R55, R65). -/
def decodeTableWord (nbits w : Nat) : Option Instr :=
  if w % 2 ^ nbits < 65536 then
    match decode (tableWord nbits w) with
    | .ok i => some i
    | .error _ => none
  else none

end Sys2Proof
end

