-- ==== Sys2Proof/Config.lean ====
section
/-! DEFINITION. What one LCEC instance fixes (the parameter `NMAX`, R6) and the one free value of the model (the draw of
the random source, R102). -/

namespace Sys2Proof

/-- The parameters of one instance. `NMAX` is the spec's only open number (R6, R7, 92_eei_decisions.md D2); `FMAX`
and `WMAX` are functions of it (`Machine.fmax`, `Machine.wmax`). A state carries its instance's parameters and no
step changes them, so a statement about every state is a statement about every `NMAX`. -/
structure Config where
  /-- `NMAX`, the capacity of `IN` in symbols -/
  nmax : Nat
  deriving DecidableEq, Repr

/-- `1 <= NMAX <= 2048` (R6): what keeps every buffer inside its 4096-address window (R44). -/
abbrev Config.wf (c : Config) : Prop := 1 ≤ c.nmax ∧ c.nmax ≤ 2048

/-- The default instance, `NMAX = 64` (R6). -/
def Config.default : Config := { nmax := 64 }

/-- THE FREE VALUE of the model: `RandIndex(n + 1)`, the answer of the random source to draw number `k` for a frame of
`n + 1` bits (R102). It has no body: nothing is known of it but the contract of R102, `0 <= r < n + 1`, which its
type states. The random source stands outside the block (R11, R34). Log entry 2. -/
opaque Config.randIndex : (k : Nat) → (n : Nat) → Fin (n + 1)

end Sys2Proof
end

