-- ==== Sys2Proof/Machine/Memory.lean ====
section
/-! DEFINITION. The host-writable memory of the block: the cells of `IN` (10_state.md R16), keyed by cell index; cell
`i` stands at host address `0x1000 + i` (20_memory.md R44). It is a list of (index, symbol) pairs in one canonical form.
The other four windows are buffers of a varying length and are lists of `State` (R17 to R20). -/

namespace Sys2Proof.Machine

/-- The cells of `IN` that differ from the reset content, indices rising. -/
abbrev Memory := List Host.Cell

/-- What a cell that is not listed holds: the reset content `0x00` of every `IN` cell (R35). -/
def Memory.unlisted : Sym := 0x00#8

/-- The canonical form: indices strictly rising, and no entry that an unlisted cell would read the same as. -/
abbrev Memory.wf (m : Memory) : Prop :=
  m.Pairwise (fun c d => c.1 < d.1) ∧ ∀ c ∈ m, c.2 ≠ Memory.unlisted

/-- The content of cell `a`. -/
def Memory.read : Memory → Nat → Sym
  | [], _ => Memory.unlisted
  | (b, v) :: m, a => if a = b then v else Memory.read m a

/-- The memory after cell `a` is written with `v`: an entry is put in order, replaced, or, where `v` is what an
unlisted cell reads as, taken out. -/
def Memory.write : Memory → Nat → Sym → Memory
  | [], a, v => if v = Memory.unlisted then [] else [(a, v)]
  | (b, u) :: m, a, v =>
    if a < b then (if v = Memory.unlisted then (b, u) :: m else (a, v) :: (b, u) :: m)
    else if a = b then (if v = Memory.unlisted then m else (a, v) :: m)
    else (b, u) :: Memory.write m a v

/-- Every listed cell is one of the first `n` (the `NMAX` cells of R16). -/
abbrev Memory.below (m : Memory) (n : Nat) : Prop := ∀ c ∈ m, c.1 < n

end Sys2Proof.Machine
end

