-- ==== Sys2Proof/Machine/State.lean ====
section
/-! DEFINITION. The whole state of one LCEC instance (10_state.md R14), its reset value (R35), and the ways a step can
stop (there is none in the spec). Four fields are the model's own and not the spec's: `cfg`, `draws`, `pending` and
`answers` (log entries 1, 2, 3, 4). The length registers `WLEN`, `EFLEN`, `CFLEN`, `DRLEN` are the lengths of the four
buffers, stored once (R10, R28). -/

namespace Sys2Proof.Machine

/-- The tag of a frame buffer, `EFK` and `CFK` (R12, R18, R19, R30). Code 3 never occurs (U7). -/
inductive FrameKind where
  /-- code 0: the buffer is empty -/
  | none
  /-- code 1: built by Hamming -/
  | ham
  /-- code 2: built by CRC-8 -/
  | crc
  deriving DecidableEq, Repr

/-- The tag of the decode result, `DRK` (R12, R20, R30). Codes 4 to 7 never occur (U7). -/
inductive ResultKind where
  /-- code 0: no decode result -/
  | none
  /-- code 1: the corrected full Hamming frame -/
  | frame
  /-- code 2: the verified data portion of a CRC-8 frame -/
  | data
  /-- code 3: DetectionFailure -/
  | detfail
  deriving DecidableEq, Repr

/-- The error codes of `STATUS.ERRC` (R110). Codes 8 to 15 are never written (U7). -/
inductive ErrCode where
  /-- code 0: the command completed -/
  | none
  /-- code 1 (R113) -/
  | invalidInput
  /-- code 2 (R114) -/
  | unsupportedTechnique
  /-- code 3 (R115) -/
  | unsupportedMethod
  /-- code 4 (R116) -/
  | illegalCommand
  /-- code 5 (R117) -/
  | kindMismatch
  /-- code 6 (R118) -/
  | indexRange
  /-- code 7 (R119) -/
  | syndromeRange
  deriving DecidableEq, Repr

/-- What the outside does to the block (R11, R39, R128): the two transactions of the host port, and the reset input. -/
inductive HostEvent where
  /-- `HostRead(a)` (R46) -/
  | read (a : Word)
  /-- `HostWrite(a, v)` (R47); a write to address 0 issues a command -/
  | write (a v : Word)
  /-- `RST` asserted, between transactions (R128) -/
  | rst
  deriving DecidableEq, Repr

/-- The block's answer to one transaction (R39). -/
inductive Response where
  /-- `OK(v)`, to a read -/
  | okv (v : Word)
  /-- `OK`, to a write -/
  | ok
  /-- `ERR`, the port's own refusal (R40, R121) -/
  | err
  deriving DecidableEq, Repr

/-- The state (R14). -/
structure State where
  /-- the instance's parameters (`NMAX`, R6): no step changes them; the model's own field, log entry 1 -/
  cfg : Config
  /-- `IN`, the input symbol buffer (R16) -/
  inp : Memory
  /-- `ILEN`, the number of valid symbols in `IN` (R27) -/
  ilen : Nat
  /-- `WV`, the waveform; its length is `WLEN` (R17, R28) -/
  wv : List Level
  /-- `EF`, the encoded frame; its length is `EFLEN` (R18, R28) -/
  ef : List Bit
  /-- `KIND.EFK` (R18, R30) -/
  efk : FrameKind
  /-- `CF`, the corrupted frame; its length is `CFLEN` (R19, R28) -/
  cf : List Bit
  /-- `KIND.CFK` (R19, R30) -/
  cfk : FrameKind
  /-- `EPOS`, the index of the flipped bit of `CF` (R29) -/
  epos : Nat
  /-- `DR`, the decode result; its length is `DRLEN` (R20, R28) -/
  dr : List Bit
  /-- `KIND.DRK` (R20, R30) -/
  drk : ResultKind
  /-- `STATUS.ERRC` (R24) -/
  errc : ErrCode
  /-- `STATUS.DONE` (R24) -/
  done : Bool
  /-- `CTRL.DET` (R25) -/
  det : Bool
  /-- `RIDX` (R26) -/
  ridx : Word
  /-- how many draws the random source has answered; the model's own field, log entry 2 -/
  draws : Nat
  /-- the host events still to be performed, in issue order (R50); the model's own field, log entry 3 -/
  pending : List HostEvent
  /-- the answers given so far, oldest first (R134); the model's own field, log entry 4 -/
  answers : List Response
  deriving DecidableEq, Repr

/-- The ways the machine stops. The spec gives none: every command ends and every transaction is answered (R64,
R111, R133), and a command error is a next state (R111), so the type is empty and no step can fault. -/
inductive Fault where
  deriving DecidableEq, Repr

/-- The ways the model has no meaning to give. -/
inductive Refusal where
  /-- Raised by an arm of `exec` whose instruction has no meaning yet, and by nobody else (safe: the run stops). Every
  arm of this model has its meaning, so nothing raises it. -/
  | notModelled (mnemonic : String)
  deriving DecidableEq, Repr

/-- What a command answers. -/
abbrev Result := Host.Outcome State Fault Refusal

/-- The state after reset of an instance with parameters `c` (R35): every register 0, every buffer empty, every tag
`NONE`, every `IN` cell `0x00`. -/
def State.resetOf (c : Config) : State where
  cfg := c
  inp := []
  ilen := 0
  wv := []
  ef := []
  efk := .none
  cf := []
  cfk := .none
  epos := 0
  dr := []
  drk := .none
  errc := .none
  done := false
  det := false
  ridx := 0x0000#16
  draws := 0
  pending := []
  answers := []

/-- The state after reset of the default instance, `NMAX = 64` (R6, R35). -/
def State.reset : State := State.resetOf Config.default

end Sys2Proof.Machine
end

