-- ==== Sys2Proof/Machine/Flags.lean ====
section
/-! DEFINITION. The numeric codes of the tags, levels and errors (R20, R30, R36, R110), the register words the host reads
(R22, R24, R25, R28, R29, R30), and the one way in which a command writes `STATUS` (R24, R32). LCEC has no
arithmetic flags (R32). -/

namespace Sys2Proof.Machine

/-- The 4-bit code of an error (R110). -/
def ErrCode.code : ErrCode → BitVec 4
  | .none => 0
  | .invalidInput => 1
  | .unsupportedTechnique => 2
  | .unsupportedMethod => 3
  | .illegalCommand => 4
  | .kindMismatch => 5
  | .indexRange => 6
  | .syndromeRange => 7

/-- The 2-bit code of a frame tag (R30). -/
def FrameKind.code : FrameKind → BitVec 2
  | .none => 0
  | .ham => 1
  | .crc => 2

/-- The 3-bit code of a result tag (R20, R30). -/
def ResultKind.code : ResultKind → BitVec 3
  | .none => 0
  | .frame => 1
  | .data => 2
  | .detfail => 3

/-- The 2-bit two's-complement code of a level (R36). -/
def levelCode : Level → BitVec 2
  | .pos => 0b01
  | .zero => 0b00
  | .neg => 0b11

/-- A length or index register: its natural value in binary (R22). -/
def natWord (n : Nat) : Word := BitVec.ofNat 16 n

/-- `STATUS`: `ERRC` in bits 3:0, `DONE` in bit 4, the rest 0 (R24). -/
def statusWord (s : State) : Word := 0#11 ++ BitVec.ofBool s.done ++ s.errc.code

/-- `CTRL`: `DET` in bit 0, the rest 0 (R25). -/
def ctrlWord (s : State) : Word := 0#15 ++ BitVec.ofBool s.det

/-- `KIND`: `EFK` in bits 1:0, `CFK` in bits 3:2, `DRK` in bits 6:4, the rest 0 (R30). -/
def kindWord (s : State) : Word := 0#9 ++ s.drk.code ++ s.cfk.code ++ s.efk.code

/-- A `WV` cell as the host reads it: its level code, zero-extended (R36, R42). -/
def levelWord (l : Level) : Word := (levelCode l).setWidth 16

/-- A frame bit as the host reads it (R42). -/
def bitWord (b : Bit) : Word := (BitVec.ofBool b).setWidth 16

/-- An `IN` cell as the host reads it (R42). -/
def symWord (c : Sym) : Word := c.setWidth 16

/-- The `STATUS` write that ends every command but `CLR`: the code of its outcome, and `DONE = 1` (R24, R111). -/
def setStatus (e : ErrCode) (s : State) : State := { s with errc := e, done := true }

end Sys2Proof.Machine
end

