-- ==== Sys2Proof/Machine/Ops.lean ====
section
/-! DEFINITION. The named operations over the state: the writes of each buffer with its length and tag (00_scope.md
R10), the writes the host can make (R47), and the end of a command, in success or by `raise` (60_exceptions.md R111).
There is no return from an error and nothing to restore (R124), so no operation stands beside `raiseError` for it. -/

namespace Sys2Proof.Machine

/-- `WV <- w` (`WLEN <- len(w)`, R10, R17). -/
def writeWv (w : List Level) (s : State) : State := { s with wv := w }

/-- `EF <- f ; EFK <- k` (R10, R18); with `.none` and `[]` it empties the buffer. -/
def writeEf (k : FrameKind) (f : List Bit) (s : State) : State := { s with ef := f, efk := k }

/-- `CF <- f ; CFK <- k ; EPOS <- p` (R10, R19); with `.none`, `[]` and 0 it empties the buffer (R62). -/
def writeCf (k : FrameKind) (f : List Bit) (p : Nat) (s : State) : State :=
  { s with cf := f, cfk := k, epos := p }

/-- `DR <- f ; DRK <- k` (R10, R20); with `.none` and `[]` it empties the buffer. -/
def writeDr (k : ResultKind) (f : List Bit) (s : State) : State := { s with dr := f, drk := k }

/-- `IN[i] <- v` (R47). -/
def writeCell (i : Nat) (v : Sym) (s : State) : State := { s with inp := s.inp.write i v }

/-- `ILEN <- n` (R47). -/
def writeIlen (n : Nat) (s : State) : State := { s with ilen := n }

/-- `CTRL <- v`, of which only the bit `DET` exists (R25, R47). -/
def writeDet (b : Bool) (s : State) : State := { s with det := b }

/-- `RIDX <- v` (R47). -/
def writeRidx (v : Word) (s : State) : State := { s with ridx := v }

/-- The answer to a transaction is given (R39). -/
def answer (r : Response) (s : State) : State := { s with answers := s.answers ++ [r] }

/-- The destination sets of R62, column "empties on failure". -/
inductive DestSet where
  /-- `OPC = 1`: `WV` -/
  | lenc
  /-- `OPC = 3`: `EF`, `CF`, `EPOS`, `DR` -/
  | ecenc
  /-- `INJ`: `CF`, `EPOS`, `DR` -/
  | inj
  /-- `OPC = 4`: `DR` -/
  | ecdec
  /-- `OPC = 2`: `EF`, `CF`, `EPOS`, `DR` -/
  | ecrun
  /-- an illegal word: nothing -/
  | nothing
  deriving DecidableEq, Repr

/-- Empties a destination set: lengths 0, tags `NONE`, `EPOS = 0` (R10, R62). -/
def emptyDest : DestSet → State → State
  | .lenc, s => writeWv [] s
  | .ecenc, s => writeDr .none [] (writeCf .none [] 0 (writeEf .none [] s))
  | .inj, s => writeDr .none [] (writeCf .none [] 0 s)
  | .ecdec, s => writeDr .none [] s
  | .ecrun, s => writeDr .none [] (writeCf .none [] 0 (writeEf .none [] s))
  | .nothing, s => s

/-- `raise E`, the error entry of LCEC, for every command and every cause (R111): the destination set is emptied, `ERRC`
holds the code, `DONE` is 1, and nothing else changes: no state is saved and control goes nowhere (R123). The state
given is the one before the command's own writes. -/
def raiseError (d : DestSet) (e : ErrCode) (s : State) : Result := .next (setStatus e (emptyDest d s))

/-- A command ends in success: `ERRC <- 0`, `DONE <- 1` (R24). -/
def succeed (s : State) : Result := .next (setStatus .none s)

/-- `ExecIllegal` (R63, R116). -/
def execIllegal (s : State) : Result := raiseError .nothing .illegalCommand s

/-- `RST` (R128): every piece of the spec's state takes its value of R35, whatever it was. What stands outside the
block is kept: the instance's parameters, the count of draws (the random source is not reset, R34), the host's
further events, and the answers the host has had. -/
def applyReset (s : State) : State :=
  { State.resetOf s.cfg with draws := s.draws, pending := s.pending, answers := s.answers }

end Sys2Proof.Machine
end

