-- ==== Sys2Proof/Machine/Operands.lean ====
section
/-! DEFINITION. The operands of the commands, all implicit (30_encoding.md R60): the validated input string (R68), the
frame a decoder or the injector reads (R59, R91, R103), the method a selector names (R59), and the injection index
(R102). Also `Flip` (R101), the one way in which a bit of a frame is complemented. -/

namespace Sys2Proof.Machine

/-- The error-control methods (R12). -/
inductive Method where
  /-- Hamming -/
  | ham
  /-- CRC-8 -/
  | crc
  deriving DecidableEq, Repr

/-- The tag of a frame that the method builds. -/
def Method.kind : Method → FrameKind
  | .ham => .ham
  | .crc => .crc

/-- `METH` (R59): 0 is Hamming, 1 is CRC-8, every other value names no method. -/
def methodOf : Nat → Option Method
  | 0 => some .ham
  | 1 => some .crc
  | _ => none

/-- One symbol as a bit: the codes `0x30` and `0x31` and no other (R16, R68). -/
def symBit (c : Sym) : Option Bit :=
  if c = 0x30#8 then some false else if c = 0x31#8 then some true else none

/-- The loop of `Validate` over the `n` cells from cell `i` on. -/
def readBits (m : Memory) : Nat → Nat → Option (List Bit)
  | _, 0 => some []
  | i, n + 1 =>
    match symBit (m.read i) with
    | none => none
    | some b => (readBits m (i + 1) n).map (b :: ·)

/-- `Validate` (R68): the whole string or `InvalidInput`, nothing written. -/
def validate (s : State) : Except ErrCode (List Bit) :=
  if s.ilen = 0 then .error .invalidInput
  else
    match readBits s.inp 0 s.ilen with
    | none => .error .invalidInput
    | some b => .ok b

/-- The frame group `ECDEC` reads and its tag: `SRC = 0` is `CF`, `SRC = 1` is `EF` (R59, R91). -/
def sourceFrame (src : BitVec 1) (s : State) : List Bit × FrameKind :=
  if src = 0#1 then (s.cf, s.cfk) else (s.ef, s.efk)

/-- `Flip(f, p)` (R101). -/
def flipBit (f : List Bit) (p : Nat) : List Bit := f.modify p Bool.not

/-- The index before its test: `RIDX` when `CTRL.DET = 1`, else one draw of the random source (R102). The draw is the
free value `Config.randIndex`. -/
def indexSource (n : Nat) (s : State) : Nat :=
  if s.det then s.ridx.toNat else (Config.randIndex s.draws (n - 1)).val

/-- `PickIndex(n)` (R102): the index, or `IndexRange`; never reduced modulo `n`. -/
def pickIndex (n : Nat) (s : State) : Except ErrCode Nat :=
  if indexSource n s ≥ n then .error .indexRange else .ok (indexSource n s)

/-- The draw that `PickIndex` made is counted: one in random mode, none in deterministic mode (R102). -/
def countDraw (s : State) : State := if s.det then s else { s with draws := s.draws + 1 }

end Sys2Proof.Machine
end

