-- ==== Sys2Proof/Machine/Crc.lean ====
section
/-! DEFINITION. The CRC-8 generator and detector as functions (42_crc8.md R94 to R96). -/

namespace Sys2Proof.Machine

/-- LC's DecodeResult (R12, R20): what a decoder returns when it raises no error. -/
inductive DecodeResult where
  /-- Hamming: the corrected full frame (R87) -/
  | frame (f : List Bit)
  /-- CRC-8: the verified data portion (R96) -/
  | data (d : List Bit)
  /-- CRC-8: DetectionFailure, a result and no error (R96, R120) -/
  | detectionFailure
  deriving DecidableEq, Repr

/-- One of the eight steps (R94): the top bit is tested before the shift, and the bit shifted out is dropped. -/
def crcShift (r : BitVec 8) : BitVec 8 := if r.msb then (r <<< 1) ^^^ 0x07#8 else r <<< 1

/-- One data bit: XORed in at position 7, then eight steps (R94). -/
def crcBit (r : BitVec 8) (x : Bit) : BitVec 8 :=
  crcShift (crcShift (crcShift (crcShift (crcShift (crcShift (crcShift (crcShift
    (r ^^^ (if x then 0x80#8 else 0x00#8)))))))))

/-- `Crc8(d)`, from the start value `0x00` (R94). -/
def crc8 (d : List Bit) : BitVec 8 := d.foldl crcBit 0x00#8

/-- The eight bits of a register, bit 7 first (R95). -/
def byteBits (r : BitVec 8) : List Bit :=
  [r.getLsbD 7, r.getLsbD 6, r.getLsbD 5, r.getLsbD 4, r.getLsbD 3, r.getLsbD 2, r.getLsbD 1, r.getLsbD 0]

/-- `CrcEncode(d)` (R95). -/
def crcEncode (d : List Bit) : List Bit := d ++ byteBits (crc8 d)

/-- Bits as a binary integer, the first bit most significant (R96). -/
def bitsNat (f : List Bit) : Nat := f.foldl (fun a b => 2 * a + b.toNat) 0

/-- `CrcDetect(f)` (R96). -/
def crcDetect (f : List Bit) : Except ErrCode DecodeResult :=
  if f.length ≤ 8 then .error .invalidInput
  else if (crc8 (f.take (f.length - 8))).toNat = bitsNat (f.drop (f.length - 8)) then
    .ok (.data (f.take (f.length - 8)))
  else .ok .detectionFailure

end Sys2Proof.Machine
end

