-- ==== Sys2Proof/Machine/Hamming.lean ====
section
/-! DEFINITION. The Hamming codec as functions (41_hamming.md R81 to R88) and the buffer capacities that depend on its
redundancy count (00_scope.md R6). Positions are 1-indexed: position `k` is the frame element of index `k - 1` (R82). -/

namespace Sys2Proof.Machine

/-- The loop of `RH(L)` from candidate `m`, at most `fuel` further candidates (R81). -/
def rhFrom (l : Nat) : Nat → Nat → Nat
  | 0, m => m
  | fuel + 1, m => if 2 ^ m < l + m + 1 then rhFrom l fuel (m + 1) else m

/-- `RH(L)`, the least `m` with `2^m >= L + m + 1` (R81). `L + 1` candidates are enough, since `2^(L+1) >= 2L + 2`. -/
def rh (l : Nat) : Nat := rhFrom l (l + 1) 0

/-- `FMAX` for `NMAX = n` (R6). -/
def fmax (n : Nat) : Nat := n + max 8 (rh n)

/-- `WMAX` for `NMAX = n` (R6). -/
def wmax (n : Nat) : Nat := 2 * n

/-- Position `k` is a parity slot: `k` is a power of two (R82). -/
def isSlot (k : Nat) : Bool := k != 0 && 2 ^ k.log2 == k

/-- Check `i` covers position `k`: bit `i` of `k` is 1 (R83). -/
def covers (i k : Nat) : Bool := k.testBit i

/-- The XOR of the elements of `f` at the positions `p` picks, the first element being position `k`; 0 over none (R135). -/
def xorWhere (p : Nat → Bool) : Nat → List Bit → Bit
  | _, [] => false
  | k, b :: f => xor (p k && b) (xorWhere p (k + 1) f)

/-- The first loop of `HamEncode` (R84): positions `k, k + 1, ...`, `n` of them, a slot left 0 and every other position
given the next data bit. -/
def placeData : Nat → Nat → List Bit → List Bit
  | 0, _, _ => []
  | n + 1, k, d =>
    if isSlot k then false :: placeData n (k + 1) d
    else d.headD false :: placeData n (k + 1) d.tail

/-- One turn of the second loop of `HamEncode` (R84): slot `2^i` takes the XOR of the other positions of its check. -/
def fillSlot (f : List Bit) (i : Nat) : List Bit :=
  f.set (2 ^ i - 1) (xorWhere (fun k => covers i k && k != 2 ^ i) 1 f)

/-- `HamEncode(d)` (R84). -/
def hamEncode (d : List Bit) : List Bit :=
  (List.range (rh d.length)).foldl fillSlot (placeData (d.length + rh d.length) 1 d)

/-- The parity check `i` over a frame, slot included (R86, 90_conflicts.md C7). -/
def parityCheck (i : Nat) (f : List Bit) : Bit := xorWhere (covers i) 1 f

/-- `HamSyndrome(f)` (R86): the sum of `2^i` over the failing checks, one check for each power of two `<= len(f)`. -/
def hamSyndrome (f : List Bit) : Nat :=
  (List.range (f.length.log2 + 1)).foldl (fun a i => if parityCheck i f then a + 2 ^ i else a) 0

/-- `HamCorrect(f)` (R87). -/
def hamCorrect (f : List Bit) : Except ErrCode (List Bit) :=
  if hamSyndrome f = 0 then .ok f
  else if hamSyndrome f ≤ f.length then .ok (flipBit f (hamSyndrome f - 1))
  else .error .syndromeRange

/-- The elements of `f` at positions that are no slot, the first element being position `k`. -/
def hamDataFrom : Nat → List Bit → List Bit
  | _, [] => []
  | k, b :: f => if isSlot k then hamDataFrom (k + 1) f else b :: hamDataFrom (k + 1) f

/-- `HamData(f)` (R88). No command computes it: it is here for the statements about the code. -/
def hamData (f : List Bit) : List Bit := hamDataFrom 1 f

end Sys2Proof.Machine
end

