-- ==== Sys2Proof/Machine/Codec.lean ====
section
/-! DEFINITION. The common parts of groups `ECENC` and `ECDEC` (41_hamming.md R90, R91) and the meanings of `HENC`, `CENC`,
`HCOR.C`, `HCOR.E`, `CDET.C`, `CDET.E` (R90 to R92, 42_crc8.md R98 to R100). -/

namespace Sys2Proof.Machine

/-- The frame a method builds (R84, R95). -/
def encodeFrame : Method → List Bit → List Bit
  | .ham, d => hamEncode d
  | .crc, d => crcEncode d

/-- What a method's decoder makes of a frame (R87, R96). -/
def decodeFrame : Method → List Bit → Except ErrCode DecodeResult
  | .ham, f =>
    match hamCorrect f with
    | .ok r => .ok (.frame r)
    | .error e => .error e
  | .crc, f => crcDetect f

/-- `DR` and `DRK` from a decode result (R20, R91, R105). -/
def writeResult : DecodeResult → State → State
  | .frame f, s => writeDr .frame f s
  | .data d, s => writeDr .data d s
  | .detectionFailure, s => writeDr .detfail [] s

/-- `ExecECENC(meth)` (R90): it also empties what was made from the old frame (R62). -/
def execEcenc (meth : BitVec 4) (s : State) : Result :=
  match validate s with
  | .error e => raiseError .ecenc e s
  | .ok d =>
    match methodOf meth.toNat with
    | none => raiseError .ecenc .unsupportedMethod s
    | some m => succeed (writeDr .none [] (writeCf .none [] 0 (writeEf m.kind (encodeFrame m d) s)))

/-- `ExecECDEC(src, meth)` (R91), its tests in the order of R112. -/
def execEcdec (src : BitVec 1) (meth : BitVec 3) (s : State) : Result :=
  let (f, k) := sourceFrame src s
  if k = .none then raiseError .ecdec .invalidInput s
  else
    match methodOf meth.toNat with
    | none => raiseError .ecdec .unsupportedMethod s
    | some m =>
      if k ≠ m.kind then raiseError .ecdec .kindMismatch s
      else
        match decodeFrame m f with
        | .error e => raiseError .ecdec e s
        | .ok r => succeed (writeResult r s)

/-- `HENC` (R90). -/
def execHenc (s : State) : Result := execEcenc 0 s

/-- `CENC` (R98). -/
def execCenc (s : State) : Result := execEcenc 1 s

/-- `HCOR.C` (R91). -/
def execHcorC (s : State) : Result := execEcdec 0 0 s

/-- `CDET.C` (R99). -/
def execCdetC (s : State) : Result := execEcdec 0 1 s

/-- `HCOR.E` (R92). -/
def execHcorE (s : State) : Result := execEcdec 1 0 s

/-- `CDET.E` (R100). -/
def execCdetE (s : State) : Result := execEcdec 1 1 s

end Sys2Proof.Machine
end

