-- ==== Sys2Proof/Machine/Composite.lean ====
section
/-! DEFINITION. The composite error-control run, `ECRUN.H` and `ECRUN.C`, and `CLR` (44_composite_and_control.md R105 to
R108). -/

namespace Sys2Proof.Machine

/-- `ExecECRUN(meth)` (R105): encode, inject and decode as one command, all or nothing. -/
def execEcrun (meth : BitVec 4) (s : State) : Result :=
  match validate s with
  | .error e => raiseError .ecrun e s
  | .ok d =>
    match methodOf meth.toNat with
    | none => raiseError .ecrun .unsupportedMethod s
    | some m =>
      let f := encodeFrame m d
      match pickIndex f.length s with
      | .error e => raiseError .ecrun e (countDraw s)
      | .ok p =>
        match decodeFrame m (flipBit f p) with
        | .error e => raiseError .ecrun e (countDraw s)
        | .ok r =>
          succeed (writeResult r (writeCf m.kind (flipBit f p) p (writeEf m.kind f (countDraw s))))

/-- `ECRUN.H` (R106). -/
def execEcrunH (s : State) : Result := execEcrun 0 s

/-- `ECRUN.C` (R107). -/
def execEcrunC (s : State) : Result := execEcrun 1 s

/-- `CLR` (R108): every entity is discarded and `STATUS` is 0; `CTRL` and `RIDX` stay. It is the one command that does
not set `DONE`. -/
def execClr (s : State) : Result :=
  .next { s with
    inp := [], ilen := 0, wv := [], ef := [], efk := .none, cf := [], cfk := .none, epos := 0,
    dr := [], drk := .none, errc := .none, done := false }

end Sys2Proof.Machine
end

