-- ==== Sys2Proof/Machine/Injector.lean ====
section
/-! DEFINITION. The single-bit fault injector: the meaning of `INJ` (43_fault_injector.md R103). -/

namespace Sys2Proof.Machine

/-- `INJ` (R103): always from `EF`, never from `CF`. The draw, where one is made, is made after the test of `EFK` and
before the test of the index (R102). -/
def execInj (s : State) : Result :=
  if s.efk = .none then raiseError .inj .invalidInput s
  else
    match pickIndex s.ef.length s with
    | .error e => raiseError .inj e (countDraw s)
    | .ok p => succeed (writeDr .none [] (writeCf s.efk (flipBit s.ef p) p (countDraw s)))

end Sys2Proof.Machine
end

