-- ==== Sys2Proof/Machine/LineEncoder.lean ====
section
/-! DEFINITION. The line-code encoder: the seven techniques as functions from bits to levels (40_line_encoder.md R70 to
R76), the common part of group `LENC` (R69), and the meaning of each of its seven commands. -/

namespace Sys2Proof.Machine

/-- Negation of a running level or a mark polarity (R135). -/
def negate : Level → Level
  | .pos => .neg
  | .neg => .pos
  | .zero => .zero

/-- `EncNRZL` (R70). -/
def encNrzl : List Bit → List Level
  | [] => []
  | x :: b => (if x then .pos else .neg) :: encNrzl b

/-- The loop of `EncNRZI` from running level `lv`: flip on a 1, then emit (R71). -/
def encNrziFrom (lv : Level) : List Bit → List Level
  | [] => []
  | x :: b =>
    let lv' := if x then negate lv else lv
    lv' :: encNrziFrom lv' b

/-- `EncNRZI`: the running level starts `+1` (R33, R71). -/
def encNrzi (b : List Bit) : List Level := encNrziFrom .pos b

/-- `EncRZ` (R72). -/
def encRz : List Bit → List Level
  | [] => []
  | x :: b => (if x then .pos else .neg) :: .zero :: encRz b

/-- `EncMAN` (R73). -/
def encMan : List Bit → List Level
  | [] => []
  | x :: b => (if x then [.pos, .neg] else [.neg, .pos]) ++ encMan b

/-- The loop of `EncDMAN` from running level `lv` (R74): a 1 emits `-lv, +lv` and keeps `lv`; a 0 emits `+lv, -lv` and
then flips it. -/
def encDmanFrom (lv : Level) : List Bit → List Level
  | [] => []
  | x :: b =>
    if x then negate lv :: lv :: encDmanFrom lv b
    else lv :: negate lv :: encDmanFrom (negate lv) b

/-- `EncDMAN`: the running level starts `+1` (R33, R74). -/
def encDman (b : List Bit) : List Level := encDmanFrom .pos b

/-- The loop of `EncAMI` with `nx` the polarity of the next mark (R75). -/
def encAmiFrom (nx : Level) : List Bit → List Level
  | [] => []
  | x :: b => if x then nx :: encAmiFrom (negate nx) b else .zero :: encAmiFrom nx b

/-- `EncAMI`: the first mark is `+1` (R33, R75). -/
def encAmi (b : List Bit) : List Level := encAmiFrom .pos b

/-- The loop of `EncPST` with `nx` the polarity of the next mark (R76). -/
def encPstFrom (nx : Level) : List Bit → List Level
  | [] => []
  | x :: b => if x then .zero :: encPstFrom nx b else nx :: encPstFrom (negate nx) b

/-- `EncPST`: the first mark is `+1` (R33, R76). -/
def encPst (b : List Bit) : List Level := encPstFrom .pos b

/-- `LineEncode(b, tech)` (R69); the selectors 7 to 15 name no technique (R58). -/
def lineEncode (tech : BitVec 4) (b : List Bit) : Option (List Level) :=
  match tech.toNat with
  | 0 => some (encNrzl b)
  | 1 => some (encNrzi b)
  | 2 => some (encRz b)
  | 3 => some (encMan b)
  | 4 => some (encDman b)
  | 5 => some (encAmi b)
  | 6 => some (encPst b)
  | _ => none

/-- `ExecLENC(tech)` (R69): the input is validated before the selector is looked at (R112). -/
def execLenc (tech : BitVec 4) (s : State) : Result :=
  match validate s with
  | .error e => raiseError .lenc e s
  | .ok b =>
    match lineEncode tech b with
    | none => raiseError .lenc .unsupportedTechnique s
    | some w => succeed (writeWv w s)

/-- `LENC.NRZL` (R70). -/
def execLencNrzl (s : State) : Result := execLenc 0 s

/-- `LENC.NRZI` (R71). -/
def execLencNrzi (s : State) : Result := execLenc 1 s

/-- `LENC.RZ` (R72). -/
def execLencRz (s : State) : Result := execLenc 2 s

/-- `LENC.MAN` (R73). -/
def execLencMan (s : State) : Result := execLenc 3 s

/-- `LENC.DMAN` (R74). -/
def execLencDman (s : State) : Result := execLenc 4 s

/-- `LENC.AMI` (R75). -/
def execLencAmi (s : State) : Result := execLenc 5 s

/-- `LENC.PST` (R76). -/
def execLencPst (s : State) : Result := execLenc 6 s

end Sys2Proof.Machine
end

