-- ==== Sys2Proof/Machine/Dispatch.lean ====
section
/-! DEFINITION. One arm per command, each one direct call of its meaning. -/

namespace Sys2Proof.Machine

def exec (i : Instr) (s : State) : Host.Outcome State Fault Refusal :=
  match i with
  | .clr => Sys2Proof.Machine.execClr s
  | .lencNrzl => Sys2Proof.Machine.execLencNrzl s
  | .lencNrzi => Sys2Proof.Machine.execLencNrzi s
  | .lencRz => Sys2Proof.Machine.execLencRz s
  | .lencMan => Sys2Proof.Machine.execLencMan s
  | .lencDman => Sys2Proof.Machine.execLencDman s
  | .lencAmi => Sys2Proof.Machine.execLencAmi s
  | .lencPst => Sys2Proof.Machine.execLencPst s
  | .ecrunH => Sys2Proof.Machine.execEcrunH s
  | .ecrunC => Sys2Proof.Machine.execEcrunC s
  | .henc => Sys2Proof.Machine.execHenc s
  | .cenc => Sys2Proof.Machine.execCenc s
  | .hcorC => Sys2Proof.Machine.execHcorC s
  | .cdetC => Sys2Proof.Machine.execCdetC s
  | .hcorE => Sys2Proof.Machine.execHcorE s
  | .cdetE => Sys2Proof.Machine.execCdetE s
  | .inj => Sys2Proof.Machine.execInj s

end Sys2Proof.Machine
end

