-- ==== Sys2Proof/Machine/Port.lean ====
section
/-! DEFINITION. The host port (20_memory.md): the address map (R41, R44, R45), the two access primitives (R46, R47), and
`Exec` on every 16-bit word (30_encoding.md R63). -/

namespace Sys2Proof.Machine

/-- The effect of a word that is no command (R63, R64): an illegal word writes only `STATUS`; a word with an unknown
selector runs the common part of its group, which validates the source first and then fails. -/
def execRejected : Rejection → State → Result
  | .illegalCommand, s => execIllegal s
  | .unsupportedTechnique tech, s => execLenc tech s
  | .unsupportedRunMethod meth, s => execEcrun meth s
  | .unsupportedEncodeMethod meth, s => execEcenc meth s
  | .unsupportedDecodeMethod src meth, s => execEcdec src meth s

/-- `Exec(w)` (R63), total on all words: the decoded command, or the effect of the rejected word. -/
def execWord (w : Word) (s : State) : Result :=
  match decode w with
  | .ok i => exec i s
  | .error r => execRejected r s

/-- Cell `i` of an output buffer as the host reads it; `ERR` at or beyond the buffer's length (R44, R46). -/
def bufferCell {α : Type} (word : α → Word) (l : List α) (i : Nat) : Response :=
  match l[i]? with
  | some x => .okv (word x)
  | none => .err

/-- `HostRead(a)` (R46), its tests in the rule's order. It is a function of the state and changes nothing. -/
def hostRead (a : Word) (s : State) : Response :=
  let n := a.toNat
  if n = 0x0000 then .err
  else if n = 0x0001 then .okv (statusWord s)
  else if n = 0x0002 then .okv (ctrlWord s)
  else if n = 0x0003 then .okv s.ridx
  else if n = 0x0004 then .okv (natWord s.ilen)
  else if n = 0x0005 then .okv (natWord s.wv.length)
  else if n = 0x0006 then .okv (natWord s.ef.length)
  else if n = 0x0007 then .okv (natWord s.cf.length)
  else if n = 0x0008 then .okv (natWord s.dr.length)
  else if n = 0x0009 then .okv (natWord s.epos)
  else if n = 0x000A then .okv (kindWord s)
  else if 0x1000 ≤ n ∧ n < 0x1000 + s.cfg.nmax then .okv (symWord (s.inp.read (n - 0x1000)))
  else if 0x2000 ≤ n ∧ n < 0x2000 + s.wv.length then bufferCell levelWord s.wv (n - 0x2000)
  else if 0x3000 ≤ n ∧ n < 0x3000 + s.ef.length then bufferCell bitWord s.ef (n - 0x3000)
  else if 0x4000 ≤ n ∧ n < 0x4000 + s.cf.length then bufferCell bitWord s.cf (n - 0x4000)
  else if 0x5000 ≤ n ∧ n < 0x5000 + s.dr.length then bufferCell bitWord s.dr (n - 0x5000)
  else .err

/-- The writes of `HostWrite(a, v)` that execute no command (R47): the state with the cell written, or `none` where the
port refuses (a value that does not fit, a read-only cell, an unmapped address: R43, R45). -/
def hostStore (a v : Word) (s : State) : Option State :=
  let n := a.toNat
  if n = 0x0002 then (if v.toNat ≤ 1 then some (writeDet (v == 1#16) s) else none)
  else if n = 0x0003 then some (writeRidx v s)
  else if n = 0x0004 then (if v.toNat ≤ s.cfg.nmax then some (writeIlen v.toNat s) else none)
  else if 0x1000 ≤ n ∧ n < 0x1000 + s.cfg.nmax then
    (if v.toNat ≤ 0xFF then some (writeCell (n - 0x1000) (v.setWidth 8) s) else none)
  else none

/-- `HostWrite(a, v)` with its answer (R47). A write to `CMD` executes the word and is answered `OK` however the
command ends; a refused write changes nothing and is answered `ERR` (R40). -/
def hostWrite (a v : Word) (s : State) : Result :=
  if a = 0x0000#16 then
    match execWord v s with
    | .next t => .next (answer .ok t)
    | .fault r => .fault r
    | .refused r => .refused r
  else
    match hostStore a v s with
    | some t => .next (answer .ok t)
    | none => .next (answer .err s)

/-- One host event, performed to completion (R50, R128). `RST` is no transaction and has no answer. -/
def perform : HostEvent → State → Result
  | .read a, s => .next (answer (hostRead a s) s)
  | .write a v, s => hostWrite a v s
  | .rst, s => .next (applyReset s)

/-- The state in which `HostWrite(CMD, w)` is the next host event. -/
def issueCommand (w : Word) (s : State) : State := { s with pending := .write 0x0000#16 w :: s.pending }

end Sys2Proof.Machine
end

