-- ==== Sys2Proof/Machine/Step.lean ====
section
/-! DEFINITION. One step of the machine: the next host event (20_memory.md R50). -/

namespace Sys2Proof.Machine

/-- The next host event is performed, whole, in the order issued (R50). With none left the engine is idle and nothing
changes (R34, R129, R134). -/
def step (s : State) : Host.Outcome State Fault Refusal :=
  match s.pending with
  | [] => .next s
  | e :: rest => perform e { s with pending := rest }

/-- The machine fetches nothing (R21): an instruction arrives as the host's write of its word to `CMD`, which is put
before every other pending event. -/
def State.withFetchWord (s : State) (nbits w : Nat) : State := issueCommand (tableWord nbits w) s

end Sys2Proof.Machine
end

