-- ==== Sys2Proof/Safety.lean ====
section
/-! DEFINITION. What the statements are said in: which input is valid, and the invariants of 10_state.md R31. -/

namespace Sys2Proof.Machine

/-- The host has put a non-empty string of binary symbols in `IN` (R68, R113). -/
abbrev ValidInput (s : State) : Prop :=
  s.ilen ≠ 0 ∧ ∀ k < s.ilen, s.inp.read k = 0x30#8 ∨ s.inp.read k = 0x31#8

/-- Bit `k` of the input string (R16, R68). -/
def inputBit (s : State) (k : Nat) : Bit := s.inp.read k == 0x31#8

/-- The input string of a valid input, leftmost first (R9, R68). -/
def inputBits (s : State) : List Bit := (List.range s.ilen).map (inputBit s)

/-- The invariants that hold after reset and after every command (R31), each in the rule's order, and before them the
facts about the memory and the parameters that the model's layout adds. -/
structure State.Inv (s : State) : Prop where
  /-- `1 <= NMAX <= 2048` (R6) -/
  config : s.cfg.wf
  /-- `IN` is in canonical form -/
  memory : s.inp.wf
  /-- `IN` has only `NMAX` cells (R16) -/
  cells : s.inp.below s.cfg.nmax
  /-- `EFK = NONE` if and only if `EFLEN = 0` -/
  efEmpty : s.efk = .none ↔ s.ef.length = 0
  /-- `CFK = NONE` if and only if `CFLEN = 0` -/
  cfEmpty : s.cfk = .none ↔ s.cf.length = 0
  /-- a `HAM` frame is a Hamming codeword of some data that fits `IN` -/
  efHam : s.efk = .ham → ∃ d : List Bit, 1 ≤ d.length ∧ d.length ≤ s.cfg.nmax ∧ s.ef = hamEncode d
  /-- a `CRC` frame is a CRC-8 frame of some data that fits `IN` -/
  efCrc : s.efk = .crc → ∃ d : List Bit, 1 ≤ d.length ∧ d.length ≤ s.cfg.nmax ∧ s.ef = crcEncode d
  /-- `CF`, where there is one, is `EF` with exactly the bit at `EPOS` flipped, and of its kind -/
  cfFlip : s.cfk ≠ .none →
    s.cfk = s.efk ∧ s.cf.length = s.ef.length ∧ s.epos < s.cf.length ∧ s.cf = flipBit s.ef s.epos
  /-- with no `CF`, `EPOS` is 0 (R19, R29) -/
  eposEmpty : s.cfk = .none → s.epos = 0
  /-- no result and DetectionFailure leave `DR` empty -/
  drEmpty : s.drk = .none ∨ s.drk = .detfail → s.dr.length = 0
  /-- a frame or data result is not empty -/
  drFull : s.drk = .frame ∨ s.drk = .data → 1 ≤ s.dr.length
  /-- `ILEN <= NMAX` -/
  ilenBound : s.ilen ≤ s.cfg.nmax
  /-- `WLEN <= 2 * NMAX` -/
  wlenBound : s.wv.length ≤ wmax s.cfg.nmax
  /-- `EFLEN <= FMAX` -/
  eflenBound : s.ef.length ≤ fmax s.cfg.nmax
  /-- `CFLEN <= FMAX` -/
  cflenBound : s.cf.length ≤ fmax s.cfg.nmax
  /-- `DRLEN <= FMAX` -/
  drlenBound : s.dr.length ≤ fmax s.cfg.nmax

/-- The seven line-code commands (R61). -/
def lencCommands : List Instr := [.lencNrzl, .lencNrzi, .lencRz, .lencMan, .lencDman, .lencAmi, .lencPst]

/-- The commands that read `IN` (R68). -/
def inputCommands : List Instr := lencCommands ++ [.henc, .cenc, .ecrunH, .ecrunC]

/-- The level `+1` for an even count and `-1` for an odd one: a running level, or a mark polarity, that started `+1` and
was negated `m` times (R33, R135). -/
def signOf (m : Nat) : Level := if m % 2 = 0 then .pos else .neg

/-- How many 1-bits the first `k` bits of `b` hold. -/
def onesIn (b : List Bit) (k : Nat) : Nat := (b.take k).count true

/-- How many 0-bits the first `k` bits of `b` hold. -/
def zerosIn (b : List Bit) (k : Nat) : Nat := (b.take k).count false

/-- The spec's own state (R14): everything but the model's own fields `draws`, `pending` and `answers`. -/
def State.specPart (s : State) : State := { s with draws := 0, pending := [], answers := [] }

/-- The host reads the same at every address that `p` picks (20_memory.md R46). -/
def PortAgrees (p : Nat → Prop) (s t : State) : Prop := ∀ a : Word, p a.toNat → hostRead a t = hostRead a s

end Sys2Proof.Machine
end

