-- ==== Sys2Proof/Certificates/Slice0/Obligations.lean ====
section
/-! DEFINITION. The statements about LCEC, in the order of the spec's files: encoding, the step and the host port, reset and
the invariants, the line encoder, the Hamming codec, CRC-8, the injector, the composite run and `CLR`, errors. -/

open Sys2Proof Sys2Proof.Machine

/-! ### Encoding (30_encoding.md) -/

/-- R61, every row: the word written out from its `OPC` and `SEL` columns is read as its command. -/
def Obligations.SeventeenWordsDecode : Prop :=
  decode 0x0000#16 = .ok .clr ∧ decode 0x0010#16 = .ok .lencNrzl ∧ decode 0x0011#16 = .ok .lencNrzi ∧
  decode 0x0012#16 = .ok .lencRz ∧ decode 0x0013#16 = .ok .lencMan ∧ decode 0x0014#16 = .ok .lencDman ∧
  decode 0x0015#16 = .ok .lencAmi ∧ decode 0x0016#16 = .ok .lencPst ∧ decode 0x0020#16 = .ok .ecrunH ∧
  decode 0x0021#16 = .ok .ecrunC ∧ decode 0x0030#16 = .ok .henc ∧ decode 0x0031#16 = .ok .cenc ∧
  decode 0x0040#16 = .ok .hcorC ∧ decode 0x0041#16 = .ok .cdetC ∧ decode 0x0048#16 = .ok .hcorE ∧
  decode 0x0049#16 = .ok .cdetE ∧ decode 0x0050#16 = .ok .inj

/-- Decode and encode agree, both ways, over all 65536 words: a word is read as a well-formed command exactly when it is
that command's word, and the words that are read as some command are the well-formed ones. -/
def Obligations.DecodeAndEncodeAgree : Prop :=
  (∀ (w : Word) (i : Instr), i.wellFormed = true → (decode w = .ok i ↔ encode i = w)) ∧
  (∀ w : Word, wordWellFormed w = true ↔ ∃ i, decode w = .ok i)

/-- R63: what every 16-bit word executes, by its three fields. -/
def Obligations.EveryWordIsDispatchedByItsFields : Prop :=
  ∀ (w : Word) (s : State) (rsv opc sel : Nat),
    rsv = w.toNat / 256 → opc = w.toNat / 16 % 16 → sel = w.toNat % 16 →
    execWord w s =
      if rsv ≠ 0 then .next { s with errc := .illegalCommand, done := true }
      else if opc = 0 ∧ sel = 0 then exec .clr s
      else if opc = 0 then .next { s with errc := .illegalCommand, done := true }
      else if opc = 1 then execLenc (BitVec.ofNat 4 sel) s
      else if opc = 2 then execEcrun (BitVec.ofNat 4 sel) s
      else if opc = 3 then execEcenc (BitVec.ofNat 4 sel) s
      else if opc = 4 then execEcdec (BitVec.ofNat 1 (sel / 8)) (BitVec.ofNat 3 (sel % 8)) s
      else if opc = 5 ∧ sel = 0 then exec .inj s
      else .next { s with errc := .illegalCommand, done := true }

/-- R116: a word of the illegal class (R64) writes `STATUS` and touches no buffer. -/
def Obligations.IllegalWordsWriteOnlyStatus : Prop :=
  ∀ (w : Word) (s : State),
    (w.toNat ≥ 0x0100 ∨ (w.toNat / 16 % 16) ≥ 6 ∨ (0x0001 ≤ w.toNat ∧ w.toNat ≤ 0x000F) ∨
      (0x0051 ≤ w.toNat ∧ w.toNat ≤ 0x005F)) →
    execWord w s = .next { s with errc := .illegalCommand, done := true }

/-- R114, with R112's order: the words `0x0017` to `0x001F` fail with `UnsupportedTechnique` once the input is valid and
with `InvalidInput` before that; either way `WV` is emptied and nothing else is written but `STATUS`. -/
def Obligations.UnsupportedTechniqueWords : Prop :=
  ∀ (w : Word) (s : State), 0x0017 ≤ w.toNat → w.toNat ≤ 0x001F →
    (ValidInput s → execWord w s = .next { s with wv := [], errc := .unsupportedTechnique, done := true }) ∧
    (¬ ValidInput s → execWord w s = .next { s with wv := [], errc := .invalidInput, done := true })

/-- R115, with R112's order: the unsupported words of groups `ECRUN`, `ECENC` and `ECDEC` check their source first, then
fail with `UnsupportedMethod`, and empty their group's destination set. -/
def Obligations.UnsupportedMethodWords : Prop :=
  ∀ (w : Word) (s : State),
    ((0x0022 ≤ w.toNat ∧ w.toNat ≤ 0x002F) ∨ (0x0032 ≤ w.toNat ∧ w.toNat ≤ 0x003F) →
      (ValidInput s → execWord w s =
        .next { s with ef := [], efk := .none, cf := [], cfk := .none, epos := 0, dr := [], drk := .none,
                       errc := .unsupportedMethod, done := true }) ∧
      (¬ ValidInput s → execWord w s =
        .next { s with ef := [], efk := .none, cf := [], cfk := .none, epos := 0, dr := [], drk := .none,
                       errc := .invalidInput, done := true })) ∧
    (0x0042 ≤ w.toNat ∧ w.toNat ≤ 0x0047 →
      (s.cfk ≠ .none → execWord w s =
        .next { s with dr := [], drk := .none, errc := .unsupportedMethod, done := true }) ∧
      (s.cfk = .none → execWord w s =
        .next { s with dr := [], drk := .none, errc := .invalidInput, done := true })) ∧
    (0x004A ≤ w.toNat ∧ w.toNat ≤ 0x004F →
      (s.efk ≠ .none → execWord w s =
        .next { s with dr := [], drk := .none, errc := .unsupportedMethod, done := true }) ∧
      (s.efk = .none → execWord w s =
        .next { s with dr := [], drk := .none, errc := .invalidInput, done := true }))

/-! ### The step and the host port (20_memory.md) -/

/-- A step whose next event is the host's write of a command's word to `CMD` is that command's `exec`, with the event
taken from the queue and the answer `OK` added (R50, R23). The queue and the list of answers are the model's choice (log
entries 3, 4). -/
def Obligations.StepRunsTheDecodedCommand : Prop :=
  ∀ (s : State) (w : Word) (i : Instr) (rest : List HostEvent),
    i.wellFormed = true → s.pending = .write 0x0000#16 w :: rest → decode w = .ok i →
    (∀ t, exec i { s with pending := rest } = .next t →
      step s = .next { t with answers := t.answers ++ [.ok] }) ∧
    (∀ r, exec i { s with pending := rest } = .fault r → step s = .fault r) ∧
    (∀ r, exec i { s with pending := rest } = .refused r → step s = .refused r)

/-- Every step from every state answers a next state: exactly one host event is taken, a transaction is answered once, an
asserted `RST` is not answered, and with nothing pending nothing changes (R50, R133, R134). The queue, the answers and the
idle step are the model's choice (log entries 3, 4, 11). -/
def Obligations.EveryTransactionIsAnswered : Prop :=
  (∀ s : State, s.pending = [] → step s = .next s) ∧
  (∀ (s : State) (e : HostEvent) (rest : List HostEvent), s.pending = e :: rest →
    ∃ t, step s = .next t ∧ t.pending = rest ∧ t.cfg = s.cfg ∧
      (e = .rst → t.answers = s.answers) ∧
      (e ≠ .rst → ∃ r, t.answers = s.answers ++ [r]))

/-- R40: a transaction answered `ERR` changes no state at all, and the host goes on with its next access. The queue and the
answers are the model's choice (log entries 3, 4). -/
def Obligations.ErrAnswersChangeNothing : Prop :=
  ∀ (s t : State) (e : HostEvent) (rest : List HostEvent),
    s.pending = e :: rest → step s = .next t → t.answers = s.answers ++ [.err] →
    t = { s with pending := rest, answers := s.answers ++ [.err] }

/-- R46, for states of the block (R31): what every mapped address reads as, and that a read changes nothing. The queue and
the answers are the model's choice (log entries 3, 4). -/
def Obligations.HostReadFollowsTheMap : Prop :=
  (∀ s : State, s.Inv →
    hostRead 0x0000#16 s = .err ∧
    hostRead 0x0001#16 s = .okv (statusWord s) ∧
    hostRead 0x0002#16 s = .okv (if s.det then 1#16 else 0#16) ∧
    hostRead 0x0003#16 s = .okv s.ridx ∧
    (∃ v : Word, hostRead 0x0004#16 s = .okv v ∧ v.toNat = s.ilen) ∧
    (∃ v : Word, hostRead 0x0005#16 s = .okv v ∧ v.toNat = s.wv.length) ∧
    (∃ v : Word, hostRead 0x0006#16 s = .okv v ∧ v.toNat = s.ef.length) ∧
    (∃ v : Word, hostRead 0x0007#16 s = .okv v ∧ v.toNat = s.cf.length) ∧
    (∃ v : Word, hostRead 0x0008#16 s = .okv v ∧ v.toNat = s.dr.length) ∧
    (∃ v : Word, hostRead 0x0009#16 s = .okv v ∧ v.toNat = s.epos) ∧
    hostRead 0x000A#16 s = .okv (kindWord s) ∧
    (∀ (a : Word) (k : Nat), a.toNat = 0x1000 + k → k < s.cfg.nmax →
      ∃ v : Word, hostRead a s = .okv v ∧ v.toNat = (s.inp.read k).toNat) ∧
    (∀ (a : Word) (k : Nat) (l : Level), a.toNat = 0x2000 + k → s.wv[k]? = some l →
      hostRead a s = .okv (levelWord l)) ∧
    (∀ (a : Word) (k : Nat) (b : Bit), a.toNat = 0x3000 + k → s.ef[k]? = some b →
      ∃ v : Word, hostRead a s = .okv v ∧ v.toNat = b.toNat) ∧
    (∀ (a : Word) (k : Nat) (b : Bit), a.toNat = 0x4000 + k → s.cf[k]? = some b →
      ∃ v : Word, hostRead a s = .okv v ∧ v.toNat = b.toNat) ∧
    (∀ (a : Word) (k : Nat) (b : Bit), a.toNat = 0x5000 + k → s.dr[k]? = some b →
      ∃ v : Word, hostRead a s = .okv v ∧ v.toNat = b.toNat)) ∧
  (∀ (s : State) (a : Word) (rest : List HostEvent), s.pending = .read a :: rest →
    step s = .next { s with pending := rest, answers := s.answers ++ [hostRead a s] })

/-- R45: reads and writes of an unmapped address are refused: `0x000B` to `0x0FFF`, `0x6000` to `0xFFFF`, and the unmapped
tail of each window. Where an answer stands is the model's choice (log entry 4). -/
def Obligations.UnmappedAddressesAreRefused : Prop :=
  ∀ (s : State) (a v : Word), s.Inv →
    ((0x000B ≤ a.toNat ∧ a.toNat ≤ 0x0FFF) ∨ 0x6000 ≤ a.toNat ∨
      (0x1000 + s.cfg.nmax ≤ a.toNat ∧ a.toNat ≤ 0x1FFF) ∨
      (0x2000 + s.wv.length ≤ a.toNat ∧ a.toNat ≤ 0x2FFF) ∨
      (0x3000 + s.ef.length ≤ a.toNat ∧ a.toNat ≤ 0x3FFF) ∨
      (0x4000 + s.cf.length ≤ a.toNat ∧ a.toNat ≤ 0x4FFF) ∨
      (0x5000 + s.dr.length ≤ a.toNat ∧ a.toNat ≤ 0x5FFF)) →
    hostRead a s = .err ∧ hostWrite a v s = .next { s with answers := s.answers ++ [.err] }

/-- R47, for states of the block (R31): what every write does, and that a refused write changes nothing. The queue and the
answers are the model's choice (log entries 3, 4). -/
def Obligations.HostWriteFollowsTheMap : Prop :=
  ∀ (s : State) (a v : Word) (rest : List HostEvent), s.Inv → s.pending = .write a v :: rest →
    (a = 0x0000#16 → ∃ t, execWord v { s with pending := rest } = .next t ∧
      step s = .next { t with answers := s.answers ++ [.ok] }) ∧
    (a = 0x0002#16 → v.toNat ≤ 1 →
      step s = .next { s with det := (v.toNat == 1), pending := rest, answers := s.answers ++ [.ok] }) ∧
    (a = 0x0003#16 →
      step s = .next { s with ridx := v, pending := rest, answers := s.answers ++ [.ok] }) ∧
    (a = 0x0004#16 → v.toNat ≤ s.cfg.nmax →
      step s = .next { s with ilen := v.toNat, pending := rest, answers := s.answers ++ [.ok] }) ∧
    (∀ k, a.toNat = 0x1000 + k → k < s.cfg.nmax → v.toNat ≤ 0xFF →
      ∃ m : Memory, step s = .next { s with inp := m, pending := rest, answers := s.answers ++ [.ok] } ∧
        (m.read k).toNat = v.toNat ∧ ∀ j, j ≠ k → m.read j = s.inp.read j) ∧
    ((a = 0x0002#16 ∧ 1 < v.toNat) ∨ (a = 0x0004#16 ∧ s.cfg.nmax < v.toNat) ∨
      (0x1000 ≤ a.toNat ∧ a.toNat < 0x1000 + s.cfg.nmax ∧ 0xFF < v.toNat) ∨
      a = 0x0001#16 ∨ (0x0005 ≤ a.toNat ∧ a.toNat < 0x1000) ∨ 0x1000 + s.cfg.nmax ≤ a.toNat →
      step s = .next { s with pending := rest, answers := s.answers ++ [.err] })

/-- R54: the address map reaches every piece of the spec's state: two states of the block with the same `NMAX` that read
the same at every address are the same, but for what stands outside the block. -/
def Obligations.EveryPieceOfStateCanBeRead : Prop :=
  ∀ s t : State, s.Inv → t.Inv → s.cfg = t.cfg →
    (∀ a : Word, hostRead a s = hostRead a t) → s.specPart = t.specPart

/-- R36: the three level codes, as stored and as the host reads them, that `0b10` never occurs, and how the level is got
back from the read value. -/
def Obligations.LevelCodes : Prop :=
  (levelCode .pos = 0b01#2 ∧ levelCode .zero = 0b00#2 ∧ levelCode .neg = 0b11#2) ∧
  (∀ l, levelCode l ≠ 0b10#2) ∧
  (∀ (s : State) (a : Word) (k : Nat) (l : Level), s.Inv → a.toNat = 0x2000 + k → s.wv[k]? = some l →
    ∃ v : Word, hostRead a s = .okv v ∧
      v = (match l with | .pos => 0x0001#16 | .zero => 0x0000#16 | .neg => 0x0003#16) ∧
      (v.extractLsb' 0 2).toInt = (match l with | .pos => 1 | .zero => 0 | .neg => -1))

/-- The layouts of `STATUS` and `KIND` (R24, R30), with the codes of R110 and R30. -/
def Obligations.StatusAndKindLayouts : Prop :=
  (∀ s : State, (statusWord s).toNat =
    (match s.errc with
      | .none => 0 | .invalidInput => 1 | .unsupportedTechnique => 2 | .unsupportedMethod => 3
      | .illegalCommand => 4 | .kindMismatch => 5 | .indexRange => 6 | .syndromeRange => 7)
    + 16 * s.done.toNat) ∧
  (∀ s : State, (kindWord s).toNat =
    (match s.efk with | .none => 0 | .ham => 1 | .crc => 2)
    + 4 * (match s.cfk with | .none => 0 | .ham => 1 | .crc => 2)
    + 16 * (match s.drk with | .none => 0 | .frame => 1 | .data => 2 | .detfail => 3))

/-! ### Reset and the invariants (10_state.md, 70_reset_and_hazards.md) -/

/-- R128 and the values of R35: `RST` puts every piece of the spec's state to its reset value, whatever the state was,
and keeps nothing. What stands outside the block is untouched (log entries 2, 3, 4). -/
def Obligations.ResetEventIsConstant : Prop :=
  ∀ (s : State) (rest : List HostEvent), s.pending = .rst :: rest →
    ∃ t, step s = .next t ∧
      (∀ k, t.inp.read k = 0x00#8) ∧ t.ilen = 0 ∧ t.wv = [] ∧ t.ef = [] ∧ t.efk = .none ∧ t.cf = [] ∧
      t.cfk = .none ∧ t.epos = 0 ∧ t.dr = [] ∧ t.drk = .none ∧ t.errc = .none ∧ t.done = false ∧
      t.det = false ∧ t.ridx = 0x0000#16 ∧
      t.cfg = s.cfg ∧ t.draws = s.draws ∧ t.pending = rest ∧ t.answers = s.answers

/-- R129: right after reset every register reads 0, `IN` cells read 0, every read inside an output window is refused,
and the state meets the invariants of R31, whatever `NMAX` is. -/
def Obligations.ReadsAfterReset : Prop :=
  ∀ c : Config, c.wf →
    (State.resetOf c).Inv ∧
    (∀ a : Word, 1 ≤ a.toNat → a.toNat ≤ 0x000A → hostRead a (State.resetOf c) = .okv 0x0000#16) ∧
    (∀ a : Word, 0x1000 ≤ a.toNat → a.toNat < 0x1000 + c.nmax → hostRead a (State.resetOf c) = .okv 0x0000#16) ∧
    (∀ a : Word, 0x2000 ≤ a.toNat → a.toNat ≤ 0x5FFF → hostRead a (State.resetOf c) = .err)

/-- The invariants of R31 hold at `State.reset`. -/
def Obligations.ResetMeetsTheInvariants : Prop := State.reset.Inv

/-- R31: the invariants hold after every command, and after every other host event, from every state that meets them. -/
def Obligations.EveryStepKeepsTheInvariants : Prop :=
  ∀ s t : State, s.Inv → step s = .next t → t.Inv

/-- "Written only by": which commands may change each piece of the spec's state (R16 to R20, R24 to R27, R62). The clauses on
`cfg`, `pending` and `answers` are about fields that are the model's choice (log entries 1, 3, 4). -/
def Obligations.EachBufferHasItsOwnWriters : Prop :=
  ∀ (i : Instr) (s t : State), exec i s = .next t →
    t.cfg = s.cfg ∧ t.det = s.det ∧ t.ridx = s.ridx ∧ t.pending = s.pending ∧ t.answers = s.answers ∧
    (i ≠ .clr → t.inp = s.inp ∧ t.ilen = s.ilen ∧ t.done = true) ∧
    (i ∉ .clr :: lencCommands → t.wv = s.wv) ∧
    (i ∉ [.clr, .henc, .cenc, .ecrunH, .ecrunC] → t.ef = s.ef ∧ t.efk = s.efk) ∧
    (i ∉ [.clr, .henc, .cenc, .ecrunH, .ecrunC, .inj] → t.cf = s.cf ∧ t.cfk = s.cfk ∧ t.epos = s.epos) ∧
    (i ∈ lencCommands → t.dr = s.dr ∧ t.drk = s.drk)

/-! ### The line encoder (40_line_encoder.md) -/

/-- R68: `Validate` gives the whole string, or `InvalidInput` where the string is empty or holds a symbol that is neither
`0x30` nor `0x31`, and then every command that reads `IN` fails with that error. -/
def Obligations.InputIsValidatedWhole : Prop :=
  (∀ s : State, ValidInput s → validate s = .ok (inputBits s) ∧ (inputBits s).length = s.ilen) ∧
  (∀ s : State, ¬ ValidInput s → validate s = .error .invalidInput) ∧
  (∀ (s : State) (i : Instr), ¬ ValidInput s → i ∈ inputCommands →
    ∃ t, exec i s = .next t ∧ t.errc = .invalidInput)

/-- R70: NRZ-L, its word, its waveform bit by bit, its frame and its error. -/
def Obligations.LencNrzlMeaning : Prop :=
  encode .lencNrzl = 0x0010#16 ∧
  (∀ s : State, ValidInput s → ∃ w : List Level,
    exec .lencNrzl s = .next { s with wv := w, errc := .none, done := true } ∧ w.length = s.ilen ∧
    ∀ k < s.ilen, w[k]? = some (if s.inp.read k = 0x31#8 then .pos else .neg)) ∧
  (∀ s : State, ¬ ValidInput s →
    exec .lencNrzl s = .next { s with wv := [], errc := .invalidInput, done := true })

/-- R71: NRZ-I: the level after `m` 1-bits, the bit's own included (flip, then emit), from `+1`. -/
def Obligations.LencNrziMeaning : Prop :=
  encode .lencNrzi = 0x0011#16 ∧
  (∀ s : State, ValidInput s → ∃ w : List Level,
    exec .lencNrzi s = .next { s with wv := w, errc := .none, done := true } ∧ w.length = s.ilen ∧
    ∀ k < s.ilen, w[k]? = some (signOf (onesIn (inputBits s) (k + 1)))) ∧
  (∀ s : State, ¬ ValidInput s →
    exec .lencNrzi s = .next { s with wv := [], errc := .invalidInput, done := true })

/-- R72: RZ: two samples a bit, the second always 0. -/
def Obligations.LencRzMeaning : Prop :=
  encode .lencRz = 0x0012#16 ∧
  (∀ s : State, ValidInput s → ∃ w : List Level,
    exec .lencRz s = .next { s with wv := w, errc := .none, done := true } ∧ w.length = 2 * s.ilen ∧
    ∀ k < s.ilen, w[2 * k]? = some (if s.inp.read k = 0x31#8 then .pos else .neg) ∧
      w[2 * k + 1]? = some .zero) ∧
  (∀ s : State, ¬ ValidInput s →
    exec .lencRz s = .next { s with wv := [], errc := .invalidInput, done := true })

/-- R73: Manchester: a 1 is `+1, -1` and a 0 is `-1, +1`. -/
def Obligations.LencManMeaning : Prop :=
  encode .lencMan = 0x0013#16 ∧
  (∀ s : State, ValidInput s → ∃ w : List Level,
    exec .lencMan s = .next { s with wv := w, errc := .none, done := true } ∧ w.length = 2 * s.ilen ∧
    ∀ k < s.ilen, w[2 * k]? = some (if s.inp.read k = 0x31#8 then .pos else .neg) ∧
      w[2 * k + 1]? = some (if s.inp.read k = 0x31#8 then .neg else .pos)) ∧
  (∀ s : State, ¬ ValidInput s →
    exec .lencMan s = .next { s with wv := [], errc := .invalidInput, done := true })

/-- R74: Differential Manchester: the second sample of a bit is the running level after it, `+1` negated once for each 0-bit
so far, and the first sample is its negation. -/
def Obligations.LencDmanMeaning : Prop :=
  encode .lencDman = 0x0014#16 ∧
  (∀ s : State, ValidInput s → ∃ w : List Level,
    exec .lencDman s = .next { s with wv := w, errc := .none, done := true } ∧ w.length = 2 * s.ilen ∧
    ∀ k < s.ilen, w[2 * k]? = some (negate (signOf (zerosIn (inputBits s) (k + 1)))) ∧
      w[2 * k + 1]? = some (signOf (zerosIn (inputBits s) (k + 1)))) ∧
  (∀ s : State, ¬ ValidInput s →
    exec .lencDman s = .next { s with wv := [], errc := .invalidInput, done := true })

/-- R75: AMI: a 0 is 0, and the 1-bits alternate from `+1`. -/
def Obligations.LencAmiMeaning : Prop :=
  encode .lencAmi = 0x0015#16 ∧
  (∀ s : State, ValidInput s → ∃ w : List Level,
    exec .lencAmi s = .next { s with wv := w, errc := .none, done := true } ∧ w.length = s.ilen ∧
    ∀ k < s.ilen, w[k]? =
      some (if s.inp.read k = 0x31#8 then signOf (onesIn (inputBits s) k) else .zero)) ∧
  (∀ s : State, ¬ ValidInput s →
    exec .lencAmi s = .next { s with wv := [], errc := .invalidInput, done := true })

/-- R76: Pseudoternary: a 1 is 0, the 0-bits alternate from `+1`. That it is AMI of the complement is the spec's own
inference, which R76 marks as derived from R75. -/
def Obligations.LencPstMeaning : Prop :=
  encode .lencPst = 0x0016#16 ∧
  (∀ s : State, ValidInput s → ∃ w : List Level,
    exec .lencPst s = .next { s with wv := w, errc := .none, done := true } ∧ w.length = s.ilen ∧
    ∀ k < s.ilen, w[k]? =
      some (if s.inp.read k = 0x31#8 then .zero else signOf (zerosIn (inputBits s) k))) ∧
  (∀ s : State, ¬ ValidInput s →
    exec .lencPst s = .next { s with wv := [], errc := .invalidInput, done := true }) ∧
  (∀ b : List Bit, encPst b = encAmi (b.map not))

/-- R60, R79, R124: the result of a command is a function of its sources alone (R62) and of the one draw: two states that
agree on a command's sources get the same results from it, a line-code word repeated gives the same waveform, and what
`STATUS` held matters to none. Equal numbers of draws mean the same draw (the model's choice, log entry 2). -/
def Obligations.CommandsReadOnlyTheirSources : Prop :=
  (∀ (tech : BitVec 4) (s s' t t' : State),
    s.ilen = s'.ilen → (∀ k < s.ilen, s.inp.read k = s'.inp.read k) →
    execLenc tech s = .next t → execLenc tech s' = .next t' →
    t.wv = t'.wv ∧ t.errc = t'.errc ∧ (∀ u, execLenc tech t = .next u → u = t)) ∧
  (∀ (i : Instr) (s : State) (e : ErrCode) (d : Bool), exec i { s with errc := e, done := d } = exec i s) ∧
  (∀ (i : Instr) (s s' t t' : State), exec i s = .next t → exec i s' = .next t' →
    (i ∈ [.henc, .cenc] → s.ilen = s'.ilen → (∀ k < s.ilen, s.inp.read k = s'.inp.read k) →
      t.ef = t'.ef ∧ t.efk = t'.efk ∧ t.errc = t'.errc) ∧
    (i ∈ [.ecrunH, .ecrunC] → s.ilen = s'.ilen → (∀ k < s.ilen, s.inp.read k = s'.inp.read k) →
      s.det = s'.det → s.ridx = s'.ridx → s.draws = s'.draws →
      t.ef = t'.ef ∧ t.efk = t'.efk ∧ t.cf = t'.cf ∧ t.cfk = t'.cfk ∧ t.epos = t'.epos ∧
      t.dr = t'.dr ∧ t.drk = t'.drk ∧ t.errc = t'.errc) ∧
    (i = .inj → s.ef = s'.ef → s.efk = s'.efk → s.det = s'.det → s.ridx = s'.ridx → s.draws = s'.draws →
      t.cf = t'.cf ∧ t.cfk = t'.cfk ∧ t.epos = t'.epos ∧ t.errc = t'.errc) ∧
    (i ∈ [.hcorC, .cdetC] → s.cf = s'.cf → s.cfk = s'.cfk →
      t.dr = t'.dr ∧ t.drk = t'.drk ∧ t.errc = t'.errc) ∧
    (i ∈ [.hcorE, .cdetE] → s.ef = s'.ef → s.efk = s'.efk →
      t.dr = t'.dr ∧ t.drk = t'.drk ∧ t.errc = t'.errc))

/-- R77 and R80: the output lengths, `N` or `2N`, and that the waveform always fits; NRZ-L under complement; the alternation
of AMI and Pseudoternary; and the only errors of the family. -/
def Obligations.EncoderProperties : Prop :=
  (∀ s : State, ValidInput s → s.ilen ≤ s.cfg.nmax →
    (∀ i ∈ [Instr.lencNrzl, .lencNrzi, .lencAmi, .lencPst],
      ∃ t, exec i s = .next t ∧ t.wv.length = s.ilen ∧ t.wv.length ≤ 2 * s.cfg.nmax) ∧
    (∀ i ∈ [Instr.lencRz, .lencMan, .lencDman],
      ∃ t, exec i s = .next t ∧ t.wv.length = 2 * s.ilen ∧ t.wv.length ≤ 2 * s.cfg.nmax)) ∧
  (∀ (b : List Bit) (k : Nat), (encNrzl (b.map not))[k]? = ((encNrzl b)[k]?).map negate) ∧
  (∀ (b : List Bit) (k : Nat) (l : Level),
    ((encAmi b).filter (fun x => x != .zero))[k]? = some l → l = signOf k) ∧
  (∀ (b : List Bit) (k : Nat) (l : Level),
    ((encPst b).filter (fun x => x != .zero))[k]? = some l → l = signOf k) ∧
  (∀ (tech : BitVec 4) (s t : State), execLenc tech s = .next t →
    t.errc = .none ∨ t.errc = .invalidInput ∨ t.errc = .unsupportedTechnique)

/-- The frame of the line-code commands: every address outside `STATUS`, `WLEN` and the `WV` window reads as before, and
so does everything a read cannot show (R62, R69). -/
def Obligations.LencFrame : Prop :=
  ∀ (i : Instr) (s t : State), s.Inv → i ∈ lencCommands → exec i s = .next t →
    PortAgrees (fun a => a ≠ 0x0001 ∧ a ≠ 0x0005 ∧ ¬ (0x2000 ≤ a ∧ a < 0x3000)) s t ∧
    t = { s with wv := t.wv, errc := t.errc, done := t.done }

/-! ### The Hamming codec (41_hamming.md) -/

/-- R81: `RH(L)` is the least `m` with `2^m >= L + m + 1`; the rule's table of its values and frame lengths. -/
def Obligations.RedundancyCountIsLeast : Prop :=
  (∀ l : Nat, l + rh l + 1 ≤ 2 ^ rh l ∧ ∀ m, m < rh l → 2 ^ m < l + m + 1) ∧
  (∀ l, 1 ≤ l → 2 ≤ rh l) ∧ (∀ l l', l ≤ l' → rh l ≤ rh l') ∧
  (∀ l, (l = 1 → rh l = 2) ∧ (2 ≤ l ∧ l ≤ 4 → rh l = 3) ∧ (5 ≤ l ∧ l ≤ 11 → rh l = 4) ∧
    (12 ≤ l ∧ l ≤ 26 → rh l = 5) ∧ (27 ≤ l ∧ l ≤ 57 → rh l = 6) ∧ (58 ≤ l ∧ l ≤ 120 → rh l = 7) ∧
    (121 ≤ l ∧ l ≤ 247 → rh l = 8) ∧ (248 ≤ l ∧ l ≤ 502 → rh l = 9) ∧ (503 ≤ l ∧ l ≤ 1013 → rh l = 10) ∧
    (1014 ≤ l ∧ l ≤ 2036 → rh l = 11) ∧ (2037 ≤ l ∧ l ≤ 2048 → rh l = 12))

/-- The frame `HamEncode` builds (R82, R84, R88): its length, the data in order at the positions that are no power of two,
and every check even, slot included; by these three it is the only such frame. -/
def Obligations.HammingFrameLayout : Prop :=
  ∀ d : List Bit, 1 ≤ d.length →
    (hamEncode d).length = d.length + rh d.length ∧
    hamData (hamEncode d) = d ∧
    (∀ i, parityCheck i (hamEncode d) = false) ∧
    (∀ f : List Bit, f.length = d.length + rh d.length → hamData f = d → (∀ i, parityCheck i f = false) →
      f = hamEncode d)

/-- The checks and the syndrome of any frame. LC's block pattern is the bit test (R85); the slots are the powers of two (R82);
bit `i` of the syndrome is the recomputed parity of check `i`, one check for each power of two up to the length (R86). -/
def Obligations.ChecksAndSyndromeOfAnyFrame : Prop :=
  (∀ i k : Nat, covers i k = true ↔ 2 ^ i ≤ k ∧ (k - 2 ^ i) % 2 ^ (i + 1) < 2 ^ i) ∧
  (∀ k : Nat, isSlot k = true ↔ ∃ i, k = 2 ^ i) ∧
  (∀ (f : List Bit) (i : Nat), 1 ≤ f.length →
    (hamSyndrome f).testBit i = (decide (2 ^ i ≤ f.length) && parityCheck i f) ∧
    hamSyndrome f < 2 ^ (f.length.log2 + 1))

/-- R93, the guarantee: every single flip of a codeword is located and corrected, the data is recovered, and so the
commands give back `EF` and never raise `SyndromeRange`. -/
def Obligations.HammingCorrectsEverySingleFlip : Prop :=
  (∀ (d : List Bit) (e : Nat), 1 ≤ d.length → e < (hamEncode d).length →
    hamSyndrome (flipBit (hamEncode d) e) = e + 1 ∧
    hamCorrect (flipBit (hamEncode d) e) = .ok (hamEncode d) ∧
    hamData (hamEncode d) = d) ∧
  (∀ s t : State, s.Inv → exec .hcorC s = .next t → t.errc = .none → t.dr = s.ef) ∧
  (∀ s t : State, s.Inv → exec .ecrunH s = .next t → t.errc = .none → t.dr = t.ef) ∧
  (∀ (i : Instr) (s t : State), s.Inv → exec i s = .next t → t.errc ≠ .syndromeRange)

/-- R90: `HENC`, its word, its frame in `EF`, what it empties, its error, and that the frame fits. -/
def Obligations.HencMeaning : Prop :=
  encode .henc = 0x0030#16 ∧
  (∀ s : State, ValidInput s →
    exec .henc s = .next { s with
      ef := hamEncode (inputBits s), efk := .ham, cf := [], cfk := .none, epos := 0, dr := [], drk := .none,
      errc := .none, done := true } ∧
    (s.ilen ≤ s.cfg.nmax → (hamEncode (inputBits s)).length ≤ fmax s.cfg.nmax)) ∧
  (∀ s : State, ¬ ValidInput s →
    exec .henc s = .next { s with
      ef := [], efk := .none, cf := [], cfk := .none, epos := 0, dr := [], drk := .none,
      errc := .invalidInput, done := true })

/-- R91 for states of the block (R31): `HCOR.C` gives the corrected full frame, which is `EF`; with no frame it fails with
`InvalidInput` and with a `CRC` frame with `KindMismatch`. -/
def Obligations.HcorCMeaning : Prop :=
  encode .hcorC = 0x0040#16 ∧
  (∀ s : State, s.Inv → s.cfk = .ham →
    exec .hcorC s = .next { s with dr := s.ef, drk := .frame, errc := .none, done := true }) ∧
  (∀ s : State, s.cfk = .none →
    exec .hcorC s = .next { s with dr := [], drk := .none, errc := .invalidInput, done := true }) ∧
  (∀ s : State, s.cfk = .crc →
    exec .hcorC s = .next { s with dr := [], drk := .none, errc := .kindMismatch, done := true })

/-- R92 for states of the block (R31): `HCOR.E` returns the frame as it is. -/
def Obligations.HcorEMeaning : Prop :=
  encode .hcorE = 0x0048#16 ∧
  (∀ s : State, s.Inv → s.efk = .ham →
    exec .hcorE s = .next { s with dr := s.ef, drk := .frame, errc := .none, done := true }) ∧
  (∀ s : State, s.efk = .none →
    exec .hcorE s = .next { s with dr := [], drk := .none, errc := .invalidInput, done := true }) ∧
  (∀ s : State, s.efk = .crc →
    exec .hcorE s = .next { s with dr := [], drk := .none, errc := .kindMismatch, done := true })

/-- The frame of the decoders: every address outside `STATUS`, `DRLEN`, `KIND` and the `DR` window reads as before; of
`KIND` only `DRK` changes (R62, R91). -/
def Obligations.DecodersFrame : Prop :=
  ∀ (i : Instr) (s t : State), s.Inv → i ∈ [.hcorC, .cdetC, .hcorE, .cdetE] → exec i s = .next t →
    PortAgrees (fun a => a ≠ 0x0001 ∧ a ≠ 0x0008 ∧ a ≠ 0x000A ∧ ¬ (0x5000 ≤ a ∧ a < 0x6000)) s t ∧
    t = { s with dr := t.dr, drk := t.drk, errc := t.errc, done := t.done }

/-! ### CRC-8 (42_crc8.md) -/

/-- Facts of the checksum that R94 states: `Crc8("1")`, leading zeros, an all-zero string, and linearity over XOR. -/
def Obligations.ChecksumIsLinear : Prop :=
  crc8 [] = 0x00#8 ∧ crc8 [true] = 0x89#8 ∧
  (∀ d, crc8 (false :: d) = crc8 d) ∧ (∀ n, crc8 (List.replicate n false) = 0x00#8) ∧
  (∀ a b : List Bit, a.length = b.length → crc8 (List.zipWith xor a b) = crc8 a ^^^ crc8 b)

/-- R95: the data unchanged in front, then the eight bits of the register, bit 7 first. -/
def Obligations.CrcFrameLayout : Prop :=
  ∀ d : List Bit,
    (crcEncode d).length = d.length + 8 ∧ (crcEncode d).take d.length = d ∧
    ∀ j < 8, (crcEncode d)[d.length + j]? = some ((crc8 d).getLsbD (7 - j))

/-- R96 in terms of R95: the detector returns data exactly for the frames the generator builds of non-empty data, fails
with `InvalidInput` on eight bits or fewer, and reports DetectionFailure of every other frame. -/
def Obligations.DetectorAcceptsExactlyCrcFrames : Prop :=
  ∀ f : List Bit,
    (∀ d, crcDetect f = .ok (.data d) ↔ 1 ≤ d.length ∧ f = crcEncode d) ∧
    (∀ e, crcDetect f = .error e ↔ f.length ≤ 8 ∧ e = .invalidInput) ∧
    (crcDetect f = .ok .detectionFailure ↔ 8 < f.length ∧ ∀ d, f ≠ crcEncode d)

/-- R97: the round trip, the detection of every single flip, and so the outcome of `CDET.C` and `ECRUN.C`. -/
def Obligations.CrcDetectsEverySingleFlip : Prop :=
  (∀ d : List Bit, 1 ≤ d.length → crcDetect (crcEncode d) = .ok (.data d)) ∧
  (∀ (d : List Bit) (e : Nat), 1 ≤ d.length → e < (crcEncode d).length →
    crcDetect (flipBit (crcEncode d) e) = .ok .detectionFailure) ∧
  (∀ s t : State, s.Inv → exec .cdetC s = .next t → t.errc = .none → t.drk = .detfail) ∧
  (∀ s t : State, exec .ecrunC s = .next t → t.errc = .none → t.drk = .detfail)

/-- R98: `CENC`, its word, its frame in `EF`, what it empties, its error, and that the frame fits. -/
def Obligations.CencMeaning : Prop :=
  encode .cenc = 0x0031#16 ∧
  (∀ s : State, ValidInput s →
    exec .cenc s = .next { s with
      ef := crcEncode (inputBits s), efk := .crc, cf := [], cfk := .none, epos := 0, dr := [], drk := .none,
      errc := .none, done := true } ∧
    (crcEncode (inputBits s)).length = s.ilen + 8 ∧
    (s.ilen ≤ s.cfg.nmax → (crcEncode (inputBits s)).length ≤ fmax s.cfg.nmax)) ∧
  (∀ s : State, ¬ ValidInput s →
    exec .cenc s = .next { s with
      ef := [], efk := .none, cf := [], cfk := .none, epos := 0, dr := [], drk := .none,
      errc := .invalidInput, done := true })

/-- R99 for states of the block (R31): `CDET.C` always ends in DetectionFailure, a success with `DR` empty; its errors. -/
def Obligations.CdetCMeaning : Prop :=
  encode .cdetC = 0x0041#16 ∧
  (∀ s : State, s.Inv → s.cfk = .crc →
    exec .cdetC s = .next { s with dr := [], drk := .detfail, errc := .none, done := true }) ∧
  (∀ s : State, s.cfk = .none →
    exec .cdetC s = .next { s with dr := [], drk := .none, errc := .invalidInput, done := true }) ∧
  (∀ s : State, s.cfk = .ham →
    exec .cdetC s = .next { s with dr := [], drk := .none, errc := .kindMismatch, done := true })

/-- R100 for states of the block (R31): `CDET.E` always gives back the data that was encoded; its errors. -/
def Obligations.CdetEMeaning : Prop :=
  encode .cdetE = 0x0049#16 ∧
  (∀ s : State, s.Inv → s.efk = .crc → ∃ d : List Bit,
    exec .cdetE s = .next { s with dr := d, drk := .data, errc := .none, done := true } ∧
    s.ef = crcEncode d ∧ d.length = s.ef.length - 8 ∧ 1 ≤ d.length) ∧
  (∀ s : State, s.efk = .none →
    exec .cdetE s = .next { s with dr := [], drk := .none, errc := .invalidInput, done := true }) ∧
  (∀ s : State, s.efk = .ham →
    exec .cdetE s = .next { s with dr := [], drk := .none, errc := .kindMismatch, done := true })

/-- The frame of the encode commands and the composite runs: every address outside `STATUS`, `EFLEN`, `CFLEN`, `DRLEN`,
`EPOS`, `KIND` and the windows of `EF`, `CF` and `DR` reads as before, the `WV` window among them (R62, R90, R105). -/
def Obligations.EncodersAndRunsFrame : Prop :=
  ∀ (i : Instr) (s t : State), s.Inv → i ∈ [.henc, .cenc, .ecrunH, .ecrunC] → exec i s = .next t →
    PortAgrees (fun a => a ≠ 0x0001 ∧ ¬ (0x0006 ≤ a ∧ a ≤ 0x000A) ∧ ¬ (0x3000 ≤ a ∧ a < 0x6000)) s t ∧
    t = { s with ef := t.ef, efk := t.efk, cf := t.cf, cfk := t.cfk, epos := t.epos, dr := t.dr,
                 drk := t.drk, errc := t.errc, done := t.done, draws := t.draws } ∧
    (i ∈ [.henc, .cenc] →
      t.cf = [] ∧ t.cfk = .none ∧ t.epos = 0 ∧ t.dr = [] ∧ t.drk = .none ∧ t.draws = s.draws)

/-! ### The fault injector (43_fault_injector.md) -/

/-- R101: `Flip` changes the bit at the index and no other, keeps the length, and is its own inverse. -/
def Obligations.FlipChangesOneBit : Prop :=
  ∀ (f : List Bit) (p : Nat), p < f.length →
    (flipBit f p).length = f.length ∧
    (flipBit f p)[p]? = (f[p]?).map not ∧
    (∀ i, i ≠ p → (flipBit f p)[i]? = f[i]?) ∧
    flipBit (flipBit f p) p = f

/-- R103 with the index of `RIDX` and with a draw, which is free: a claim holds of every index (U4). `INJ` flips one bit
of `EF` into `CF`, empties `DR`, and counts the draw (the model's choice, log entry 2); with no frame it fails with
`InvalidInput`. -/
def Obligations.InjMeaning : Prop :=
  encode .inj = 0x0050#16 ∧
  (∀ s : State, s.efk ≠ .none → s.det = true → s.ridx.toNat < s.ef.length →
    exec .inj s = .next { s with
      cf := flipBit s.ef s.ridx.toNat, cfk := s.efk, epos := s.ridx.toNat, dr := [], drk := .none,
      errc := .none, done := true }) ∧
  (∀ s : State, s.efk ≠ .none → s.det = false → 1 ≤ s.ef.length → ∃ p < s.ef.length,
    exec .inj s = .next { s with
      cf := flipBit s.ef p, cfk := s.efk, epos := p, dr := [], drk := .none,
      errc := .none, done := true, draws := s.draws + 1 }) ∧
  (∀ s : State, s.efk = .none →
    exec .inj s = .next { s with
      cf := [], cfk := .none, epos := 0, dr := [], drk := .none, errc := .invalidInput, done := true })

/-- R118 (R102): `PickIndex` fails exactly when the index is at or beyond the length, and under the contract of the random
source never in random mode. An index of `RIDX` at or beyond the frame length is not reduced: `INJ` keeps `EF`, `ECRUN`
empties it. -/
def Obligations.IndexRangeIsReported : Prop :=
  (∀ (n : Nat) (s : State), s.det = true →
    (s.ridx.toNat < n → pickIndex n s = .ok s.ridx.toNat) ∧
    (n ≤ s.ridx.toNat → pickIndex n s = .error .indexRange)) ∧
  (∀ (n : Nat) (s : State), s.det = false → 1 ≤ n → ∃ p < n, pickIndex n s = .ok p) ∧
  (∀ s : State, s.efk ≠ .none → s.det = true → s.ef.length ≤ s.ridx.toNat →
    exec .inj s = .next { s with
      cf := [], cfk := .none, epos := 0, dr := [], drk := .none, errc := .indexRange, done := true }) ∧
  (∀ s : State, ValidInput s → s.det = true → s.ilen + rh s.ilen ≤ s.ridx.toNat →
    exec .ecrunH s = .next { s with
      ef := [], efk := .none, cf := [], cfk := .none, epos := 0, dr := [], drk := .none,
      errc := .indexRange, done := true }) ∧
  (∀ s : State, ValidInput s → s.det = true → s.ilen + 8 ≤ s.ridx.toNat →
    exec .ecrunC s = .next { s with
      ef := [], efk := .none, cf := [], cfk := .none, epos := 0, dr := [], drk := .none,
      errc := .indexRange, done := true })

/-- R102: one draw for each injection that reaches `PickIndex` in random mode, and none otherwise. The counter of draws is
the model's choice (log entry 2). -/
def Obligations.OneDrawPerInjection : Prop :=
  ∀ (i : Instr) (s t : State), exec i s = .next t →
    t.draws = s.draws +
      (if s.det = false ∧ ((i = .inj ∧ s.efk ≠ .none) ∨ (i ∈ [.ecrunH, .ecrunC] ∧ ValidInput s)) then 1 else 0)

/-- The frame of `INJ`: every address outside `STATUS`, `CFLEN`, `DRLEN`, `EPOS`, `KIND` and the windows of `CF` and `DR`
reads as before; `EF` and its tag stay (R62, R103); and a second `INJ` in deterministic mode changes nothing. -/
def Obligations.InjFrame : Prop :=
  (∀ s t : State, s.Inv → exec .inj s = .next t →
    PortAgrees (fun a => a ≠ 0x0001 ∧ ¬ (0x0007 ≤ a ∧ a ≤ 0x000A) ∧ ¬ (0x4000 ≤ a ∧ a < 0x6000)) s t ∧
    t = { s with cf := t.cf, cfk := t.cfk, epos := t.epos, dr := [], drk := .none, errc := t.errc,
                 done := t.done, draws := t.draws }) ∧
  (∀ s t u : State, s.det = true → exec .inj s = .next t → exec .inj t = .next u → u = t)

/-! ### The composite run and clear (44_composite_and_control.md) -/

/-- R106: `ECRUN.H` in both modes: the frame, its single-error copy, the index, and the corrected frame, equal to `EF`. The
counter of draws is the model's choice (log entry 2). -/
def Obligations.EcrunHMeaning : Prop :=
  encode .ecrunH = 0x0020#16 ∧
  (∀ s : State, ValidInput s → s.det = true → s.ridx.toNat < s.ilen + rh s.ilen →
    exec .ecrunH s = .next { s with
      ef := hamEncode (inputBits s), efk := .ham, cf := flipBit (hamEncode (inputBits s)) s.ridx.toNat,
      cfk := .ham, epos := s.ridx.toNat, dr := hamEncode (inputBits s), drk := .frame,
      errc := .none, done := true }) ∧
  (∀ s : State, ValidInput s → s.det = false → ∃ p < s.ilen + rh s.ilen,
    exec .ecrunH s = .next { s with
      ef := hamEncode (inputBits s), efk := .ham, cf := flipBit (hamEncode (inputBits s)) p,
      cfk := .ham, epos := p, dr := hamEncode (inputBits s), drk := .frame,
      errc := .none, done := true, draws := s.draws + 1 }) ∧
  (∀ s : State, ¬ ValidInput s →
    exec .ecrunH s = .next { s with
      ef := [], efk := .none, cf := [], cfk := .none, epos := 0, dr := [], drk := .none,
      errc := .invalidInput, done := true })

/-- R107: `ECRUN.C` in both modes: always DetectionFailure, a success with `DR` empty. The counter of draws is the model's
choice (log entry 2). -/
def Obligations.EcrunCMeaning : Prop :=
  encode .ecrunC = 0x0021#16 ∧
  (∀ s : State, ValidInput s → s.det = true → s.ridx.toNat < s.ilen + 8 →
    exec .ecrunC s = .next { s with
      ef := crcEncode (inputBits s), efk := .crc, cf := flipBit (crcEncode (inputBits s)) s.ridx.toNat,
      cfk := .crc, epos := s.ridx.toNat, dr := [], drk := .detfail, errc := .none, done := true }) ∧
  (∀ s : State, ValidInput s → s.det = false → ∃ p < s.ilen + 8,
    exec .ecrunC s = .next { s with
      ef := crcEncode (inputBits s), efk := .crc, cf := flipBit (crcEncode (inputBits s)) p,
      cfk := .crc, epos := p, dr := [], drk := .detfail, errc := .none, done := true,
      draws := s.draws + 1 }) ∧
  (∀ s : State, ¬ ValidInput s →
    exec .ecrunC s = .next { s with
      ef := [], efk := .none, cf := [], cfk := .none, epos := 0, dr := [], drk := .none,
      errc := .invalidInput, done := true })

/-- R105: a successful `ECRUN` has exactly the effect of `xENC ; INJ ; xDEC.C` with the same `IN`, `CTRL`, `RIDX` and the
same draw: the encoder makes none, so both take the draw of the same number (the model's choice, log entry 2). -/
def Obligations.CompositeRunIsTheThreeCommands : Prop :=
  (∀ s t : State, exec .ecrunH s = .next t → t.errc = .none →
    ∃ a b, exec .henc s = .next a ∧ exec .inj a = .next b ∧ exec .hcorC b = .next t) ∧
  (∀ s t : State, exec .ecrunC s = .next t → t.errc = .none →
    ∃ a b, exec .cenc s = .next a ∧ exec .inj a = .next b ∧ exec .cdetC b = .next t)

/-- R108: `CLR` gives the reset state but for `CTRL` and `RIDX`, cannot fail, is the only command that leaves `DONE = 0` and
the only one that writes `IN` and `ILEN`, and twice is the same as once. That `cfg`, `draws`, `pending` and `answers` stand
outside the block and are kept is the model's choice (log entries 1 to 4). -/
def Obligations.ClrMeaning : Prop :=
  encode .clr = 0x0000#16 ∧
  (∀ s : State, exec .clr s = .next { State.resetOf s.cfg with
    det := s.det, ridx := s.ridx, draws := s.draws, pending := s.pending, answers := s.answers }) ∧
  (∀ (i : Instr) (s t : State), exec i s = .next t →
    (t.done = false ↔ i = .clr) ∧ (i ≠ .clr → t.inp = s.inp ∧ t.ilen = s.ilen)) ∧
  (∀ s t : State, exec .clr s = .next t → exec .clr t = .next t)

/-- R109: a line-code command and a composite run are independent: either order gives the same state but for `STATUS`. In
random mode the two runs draw the same index because equal counts of draws mean the same draw (the model's choice, log
entry 2). -/
def Obligations.WaveformAndRunAreIndependent : Prop :=
  ∀ (i j : Instr) (s a b c d : State), i ∈ lencCommands → j ∈ [.ecrunH, .ecrunC] →
    exec i s = .next a → exec j a = .next b → exec j s = .next c → exec i c = .next d →
    { b with errc := d.errc, done := d.done } = d

/-! ### Errors (60_exceptions.md) -/

/-- R111: a command that fails only empties its destination set and writes `STATUS`: nothing else changes, but the count
of a draw already made (the model's choice, log entry 2). -/
def Obligations.FailuresOnlyEmptyTheDestination : Prop :=
  ∀ (i : Instr) (s t : State), exec i s = .next t → t.errc ≠ .none →
    (i ∈ lencCommands → t = { s with wv := [], errc := t.errc, done := true }) ∧
    (i ∈ [.henc, .cenc, .ecrunH, .ecrunC] →
      t = { s with ef := [], efk := .none, cf := [], cfk := .none, epos := 0, dr := [], drk := .none,
                   errc := t.errc, done := true, draws := t.draws }) ∧
    (i = .inj →
      t = { s with cf := [], cfk := .none, epos := 0, dr := [], drk := .none, errc := t.errc, done := true,
                   draws := t.draws }) ∧
    (i ∈ [.hcorC, .cdetC, .hcorE, .cdetE] →
      t = { s with dr := [], drk := .none, errc := t.errc, done := true }) ∧
    i ≠ .clr

/-- R112, for states of the block (R31): the error every command reports, the first check that fails in the rule's order,
and `None` when all pass. -/
def Obligations.FirstFailingCheckIsReported : Prop :=
  ∀ (i : Instr) (s t : State), s.Inv → exec i s = .next t →
    (i = .clr → t.errc = .none) ∧
    (i ∈ lencCommands ++ [.henc, .cenc] → t.errc = if ValidInput s then .none else .invalidInput) ∧
    (i = .ecrunH → t.errc =
      if ¬ ValidInput s then .invalidInput
      else if s.det = true ∧ s.ilen + rh s.ilen ≤ s.ridx.toNat then .indexRange else .none) ∧
    (i = .ecrunC → t.errc =
      if ¬ ValidInput s then .invalidInput
      else if s.det = true ∧ s.ilen + 8 ≤ s.ridx.toNat then .indexRange else .none) ∧
    (i = .inj → t.errc =
      if s.efk = .none then .invalidInput
      else if s.det = true ∧ s.ef.length ≤ s.ridx.toNat then .indexRange else .none) ∧
    (i = .hcorC → t.errc =
      if s.cfk = .none then .invalidInput else if s.cfk = .crc then .kindMismatch else .none) ∧
    (i = .cdetC → t.errc =
      if s.cfk = .none then .invalidInput else if s.cfk = .ham then .kindMismatch else .none) ∧
    (i = .hcorE → t.errc =
      if s.efk = .none then .invalidInput else if s.efk = .crc then .kindMismatch else .none) ∧
    (i = .cdetE → t.errc =
      if s.efk = .none then .invalidInput else if s.efk = .ham then .kindMismatch else .none)

/-- R119: `SyndromeRange` is raised by `HamCorrect` exactly when the syndrome is beyond the frame, and no step of the
block from a state that meets the invariants puts it into `STATUS`. -/
def Obligations.SyndromeRangeCannotOccur : Prop :=
  (∀ f : List Bit, hamCorrect f = .error .syndromeRange ↔ f.length < hamSyndrome f) ∧
  (∀ s t : State, s.Inv → s.errc ≠ .syndromeRange → step s = .next t → t.errc ≠ .syndromeRange)
end

