-- ==== Sys2Proof/Laws/State.lean ====
section
/-! SUPPORT. Each field after each named update of the state: one lemma per field per update, each true by `rfl`, so that no
later proof unfolds an update. -/

namespace Sys2Proof.Machine

@[simp] theorem setStatus_cfg (e : ErrCode) (s : State) : (setStatus e s).cfg = s.cfg := rfl
@[simp] theorem setStatus_inp (e : ErrCode) (s : State) : (setStatus e s).inp = s.inp := rfl
@[simp] theorem setStatus_ilen (e : ErrCode) (s : State) : (setStatus e s).ilen = s.ilen := rfl
@[simp] theorem setStatus_wv (e : ErrCode) (s : State) : (setStatus e s).wv = s.wv := rfl
@[simp] theorem setStatus_ef (e : ErrCode) (s : State) : (setStatus e s).ef = s.ef := rfl
@[simp] theorem setStatus_efk (e : ErrCode) (s : State) : (setStatus e s).efk = s.efk := rfl
@[simp] theorem setStatus_cf (e : ErrCode) (s : State) : (setStatus e s).cf = s.cf := rfl
@[simp] theorem setStatus_cfk (e : ErrCode) (s : State) : (setStatus e s).cfk = s.cfk := rfl
@[simp] theorem setStatus_epos (e : ErrCode) (s : State) : (setStatus e s).epos = s.epos := rfl
@[simp] theorem setStatus_dr (e : ErrCode) (s : State) : (setStatus e s).dr = s.dr := rfl
@[simp] theorem setStatus_drk (e : ErrCode) (s : State) : (setStatus e s).drk = s.drk := rfl
@[simp] theorem setStatus_errc (e : ErrCode) (s : State) : (setStatus e s).errc = e := rfl
@[simp] theorem setStatus_done (e : ErrCode) (s : State) : (setStatus e s).done = true := rfl
@[simp] theorem setStatus_det (e : ErrCode) (s : State) : (setStatus e s).det = s.det := rfl
@[simp] theorem setStatus_ridx (e : ErrCode) (s : State) : (setStatus e s).ridx = s.ridx := rfl
@[simp] theorem setStatus_draws (e : ErrCode) (s : State) : (setStatus e s).draws = s.draws := rfl
@[simp] theorem setStatus_pending (e : ErrCode) (s : State) : (setStatus e s).pending = s.pending := rfl
@[simp] theorem setStatus_answers (e : ErrCode) (s : State) : (setStatus e s).answers = s.answers := rfl

@[simp] theorem writeWv_cfg (w : List Level) (s : State) : (writeWv w s).cfg = s.cfg := rfl
@[simp] theorem writeWv_inp (w : List Level) (s : State) : (writeWv w s).inp = s.inp := rfl
@[simp] theorem writeWv_ilen (w : List Level) (s : State) : (writeWv w s).ilen = s.ilen := rfl
@[simp] theorem writeWv_wv (w : List Level) (s : State) : (writeWv w s).wv = w := rfl
@[simp] theorem writeWv_ef (w : List Level) (s : State) : (writeWv w s).ef = s.ef := rfl
@[simp] theorem writeWv_efk (w : List Level) (s : State) : (writeWv w s).efk = s.efk := rfl
@[simp] theorem writeWv_cf (w : List Level) (s : State) : (writeWv w s).cf = s.cf := rfl
@[simp] theorem writeWv_cfk (w : List Level) (s : State) : (writeWv w s).cfk = s.cfk := rfl
@[simp] theorem writeWv_epos (w : List Level) (s : State) : (writeWv w s).epos = s.epos := rfl
@[simp] theorem writeWv_dr (w : List Level) (s : State) : (writeWv w s).dr = s.dr := rfl
@[simp] theorem writeWv_drk (w : List Level) (s : State) : (writeWv w s).drk = s.drk := rfl
@[simp] theorem writeWv_errc (w : List Level) (s : State) : (writeWv w s).errc = s.errc := rfl
@[simp] theorem writeWv_done (w : List Level) (s : State) : (writeWv w s).done = s.done := rfl
@[simp] theorem writeWv_det (w : List Level) (s : State) : (writeWv w s).det = s.det := rfl
@[simp] theorem writeWv_ridx (w : List Level) (s : State) : (writeWv w s).ridx = s.ridx := rfl
@[simp] theorem writeWv_draws (w : List Level) (s : State) : (writeWv w s).draws = s.draws := rfl
@[simp] theorem writeWv_pending (w : List Level) (s : State) : (writeWv w s).pending = s.pending := rfl
@[simp] theorem writeWv_answers (w : List Level) (s : State) : (writeWv w s).answers = s.answers := rfl

@[simp] theorem writeEf_cfg (k : FrameKind) (f : List Bit) (s : State) : (writeEf k f s).cfg = s.cfg := rfl
@[simp] theorem writeEf_inp (k : FrameKind) (f : List Bit) (s : State) : (writeEf k f s).inp = s.inp := rfl
@[simp] theorem writeEf_ilen (k : FrameKind) (f : List Bit) (s : State) : (writeEf k f s).ilen = s.ilen := rfl
@[simp] theorem writeEf_wv (k : FrameKind) (f : List Bit) (s : State) : (writeEf k f s).wv = s.wv := rfl
@[simp] theorem writeEf_ef (k : FrameKind) (f : List Bit) (s : State) : (writeEf k f s).ef = f := rfl
@[simp] theorem writeEf_efk (k : FrameKind) (f : List Bit) (s : State) : (writeEf k f s).efk = k := rfl
@[simp] theorem writeEf_cf (k : FrameKind) (f : List Bit) (s : State) : (writeEf k f s).cf = s.cf := rfl
@[simp] theorem writeEf_cfk (k : FrameKind) (f : List Bit) (s : State) : (writeEf k f s).cfk = s.cfk := rfl
@[simp] theorem writeEf_epos (k : FrameKind) (f : List Bit) (s : State) : (writeEf k f s).epos = s.epos := rfl
@[simp] theorem writeEf_dr (k : FrameKind) (f : List Bit) (s : State) : (writeEf k f s).dr = s.dr := rfl
@[simp] theorem writeEf_drk (k : FrameKind) (f : List Bit) (s : State) : (writeEf k f s).drk = s.drk := rfl
@[simp] theorem writeEf_errc (k : FrameKind) (f : List Bit) (s : State) : (writeEf k f s).errc = s.errc := rfl
@[simp] theorem writeEf_done (k : FrameKind) (f : List Bit) (s : State) : (writeEf k f s).done = s.done := rfl
@[simp] theorem writeEf_det (k : FrameKind) (f : List Bit) (s : State) : (writeEf k f s).det = s.det := rfl
@[simp] theorem writeEf_ridx (k : FrameKind) (f : List Bit) (s : State) : (writeEf k f s).ridx = s.ridx := rfl
@[simp] theorem writeEf_draws (k : FrameKind) (f : List Bit) (s : State) : (writeEf k f s).draws = s.draws := rfl
@[simp] theorem writeEf_pending (k : FrameKind) (f : List Bit) (s : State) : (writeEf k f s).pending = s.pending := rfl
@[simp] theorem writeEf_answers (k : FrameKind) (f : List Bit) (s : State) : (writeEf k f s).answers = s.answers := rfl

@[simp] theorem writeCf_cfg (k : FrameKind) (f : List Bit) (p : Nat) (s : State) : (writeCf k f p s).cfg = s.cfg := rfl
@[simp] theorem writeCf_inp (k : FrameKind) (f : List Bit) (p : Nat) (s : State) : (writeCf k f p s).inp = s.inp := rfl
@[simp] theorem writeCf_ilen (k : FrameKind) (f : List Bit) (p : Nat) (s : State) : (writeCf k f p s).ilen = s.ilen := rfl
@[simp] theorem writeCf_wv (k : FrameKind) (f : List Bit) (p : Nat) (s : State) : (writeCf k f p s).wv = s.wv := rfl
@[simp] theorem writeCf_ef (k : FrameKind) (f : List Bit) (p : Nat) (s : State) : (writeCf k f p s).ef = s.ef := rfl
@[simp] theorem writeCf_efk (k : FrameKind) (f : List Bit) (p : Nat) (s : State) : (writeCf k f p s).efk = s.efk := rfl
@[simp] theorem writeCf_cf (k : FrameKind) (f : List Bit) (p : Nat) (s : State) : (writeCf k f p s).cf = f := rfl
@[simp] theorem writeCf_cfk (k : FrameKind) (f : List Bit) (p : Nat) (s : State) : (writeCf k f p s).cfk = k := rfl
@[simp] theorem writeCf_epos (k : FrameKind) (f : List Bit) (p : Nat) (s : State) : (writeCf k f p s).epos = p := rfl
@[simp] theorem writeCf_dr (k : FrameKind) (f : List Bit) (p : Nat) (s : State) : (writeCf k f p s).dr = s.dr := rfl
@[simp] theorem writeCf_drk (k : FrameKind) (f : List Bit) (p : Nat) (s : State) : (writeCf k f p s).drk = s.drk := rfl
@[simp] theorem writeCf_errc (k : FrameKind) (f : List Bit) (p : Nat) (s : State) : (writeCf k f p s).errc = s.errc := rfl
@[simp] theorem writeCf_done (k : FrameKind) (f : List Bit) (p : Nat) (s : State) : (writeCf k f p s).done = s.done := rfl
@[simp] theorem writeCf_det (k : FrameKind) (f : List Bit) (p : Nat) (s : State) : (writeCf k f p s).det = s.det := rfl
@[simp] theorem writeCf_ridx (k : FrameKind) (f : List Bit) (p : Nat) (s : State) : (writeCf k f p s).ridx = s.ridx := rfl
@[simp] theorem writeCf_draws (k : FrameKind) (f : List Bit) (p : Nat) (s : State) : (writeCf k f p s).draws = s.draws := rfl
@[simp] theorem writeCf_pending (k : FrameKind) (f : List Bit) (p : Nat) (s : State) : (writeCf k f p s).pending = s.pending := rfl
@[simp] theorem writeCf_answers (k : FrameKind) (f : List Bit) (p : Nat) (s : State) : (writeCf k f p s).answers = s.answers := rfl

@[simp] theorem writeDr_cfg (k : ResultKind) (f : List Bit) (s : State) : (writeDr k f s).cfg = s.cfg := rfl
@[simp] theorem writeDr_inp (k : ResultKind) (f : List Bit) (s : State) : (writeDr k f s).inp = s.inp := rfl
@[simp] theorem writeDr_ilen (k : ResultKind) (f : List Bit) (s : State) : (writeDr k f s).ilen = s.ilen := rfl
@[simp] theorem writeDr_wv (k : ResultKind) (f : List Bit) (s : State) : (writeDr k f s).wv = s.wv := rfl
@[simp] theorem writeDr_ef (k : ResultKind) (f : List Bit) (s : State) : (writeDr k f s).ef = s.ef := rfl
@[simp] theorem writeDr_efk (k : ResultKind) (f : List Bit) (s : State) : (writeDr k f s).efk = s.efk := rfl
@[simp] theorem writeDr_cf (k : ResultKind) (f : List Bit) (s : State) : (writeDr k f s).cf = s.cf := rfl
@[simp] theorem writeDr_cfk (k : ResultKind) (f : List Bit) (s : State) : (writeDr k f s).cfk = s.cfk := rfl
@[simp] theorem writeDr_epos (k : ResultKind) (f : List Bit) (s : State) : (writeDr k f s).epos = s.epos := rfl
@[simp] theorem writeDr_dr (k : ResultKind) (f : List Bit) (s : State) : (writeDr k f s).dr = f := rfl
@[simp] theorem writeDr_drk (k : ResultKind) (f : List Bit) (s : State) : (writeDr k f s).drk = k := rfl
@[simp] theorem writeDr_errc (k : ResultKind) (f : List Bit) (s : State) : (writeDr k f s).errc = s.errc := rfl
@[simp] theorem writeDr_done (k : ResultKind) (f : List Bit) (s : State) : (writeDr k f s).done = s.done := rfl
@[simp] theorem writeDr_det (k : ResultKind) (f : List Bit) (s : State) : (writeDr k f s).det = s.det := rfl
@[simp] theorem writeDr_ridx (k : ResultKind) (f : List Bit) (s : State) : (writeDr k f s).ridx = s.ridx := rfl
@[simp] theorem writeDr_draws (k : ResultKind) (f : List Bit) (s : State) : (writeDr k f s).draws = s.draws := rfl
@[simp] theorem writeDr_pending (k : ResultKind) (f : List Bit) (s : State) : (writeDr k f s).pending = s.pending := rfl
@[simp] theorem writeDr_answers (k : ResultKind) (f : List Bit) (s : State) : (writeDr k f s).answers = s.answers := rfl

@[simp] theorem writeCell_cfg (i : Nat) (v : Sym) (s : State) : (writeCell i v s).cfg = s.cfg := rfl
@[simp] theorem writeCell_inp (i : Nat) (v : Sym) (s : State) : (writeCell i v s).inp = s.inp.write i v := rfl
@[simp] theorem writeCell_ilen (i : Nat) (v : Sym) (s : State) : (writeCell i v s).ilen = s.ilen := rfl
@[simp] theorem writeCell_wv (i : Nat) (v : Sym) (s : State) : (writeCell i v s).wv = s.wv := rfl
@[simp] theorem writeCell_ef (i : Nat) (v : Sym) (s : State) : (writeCell i v s).ef = s.ef := rfl
@[simp] theorem writeCell_efk (i : Nat) (v : Sym) (s : State) : (writeCell i v s).efk = s.efk := rfl
@[simp] theorem writeCell_cf (i : Nat) (v : Sym) (s : State) : (writeCell i v s).cf = s.cf := rfl
@[simp] theorem writeCell_cfk (i : Nat) (v : Sym) (s : State) : (writeCell i v s).cfk = s.cfk := rfl
@[simp] theorem writeCell_epos (i : Nat) (v : Sym) (s : State) : (writeCell i v s).epos = s.epos := rfl
@[simp] theorem writeCell_dr (i : Nat) (v : Sym) (s : State) : (writeCell i v s).dr = s.dr := rfl
@[simp] theorem writeCell_drk (i : Nat) (v : Sym) (s : State) : (writeCell i v s).drk = s.drk := rfl
@[simp] theorem writeCell_errc (i : Nat) (v : Sym) (s : State) : (writeCell i v s).errc = s.errc := rfl
@[simp] theorem writeCell_done (i : Nat) (v : Sym) (s : State) : (writeCell i v s).done = s.done := rfl
@[simp] theorem writeCell_det (i : Nat) (v : Sym) (s : State) : (writeCell i v s).det = s.det := rfl
@[simp] theorem writeCell_ridx (i : Nat) (v : Sym) (s : State) : (writeCell i v s).ridx = s.ridx := rfl
@[simp] theorem writeCell_draws (i : Nat) (v : Sym) (s : State) : (writeCell i v s).draws = s.draws := rfl
@[simp] theorem writeCell_pending (i : Nat) (v : Sym) (s : State) : (writeCell i v s).pending = s.pending := rfl
@[simp] theorem writeCell_answers (i : Nat) (v : Sym) (s : State) : (writeCell i v s).answers = s.answers := rfl

@[simp] theorem writeIlen_cfg (n : Nat) (s : State) : (writeIlen n s).cfg = s.cfg := rfl
@[simp] theorem writeIlen_inp (n : Nat) (s : State) : (writeIlen n s).inp = s.inp := rfl
@[simp] theorem writeIlen_ilen (n : Nat) (s : State) : (writeIlen n s).ilen = n := rfl
@[simp] theorem writeIlen_wv (n : Nat) (s : State) : (writeIlen n s).wv = s.wv := rfl
@[simp] theorem writeIlen_ef (n : Nat) (s : State) : (writeIlen n s).ef = s.ef := rfl
@[simp] theorem writeIlen_efk (n : Nat) (s : State) : (writeIlen n s).efk = s.efk := rfl
@[simp] theorem writeIlen_cf (n : Nat) (s : State) : (writeIlen n s).cf = s.cf := rfl
@[simp] theorem writeIlen_cfk (n : Nat) (s : State) : (writeIlen n s).cfk = s.cfk := rfl
@[simp] theorem writeIlen_epos (n : Nat) (s : State) : (writeIlen n s).epos = s.epos := rfl
@[simp] theorem writeIlen_dr (n : Nat) (s : State) : (writeIlen n s).dr = s.dr := rfl
@[simp] theorem writeIlen_drk (n : Nat) (s : State) : (writeIlen n s).drk = s.drk := rfl
@[simp] theorem writeIlen_errc (n : Nat) (s : State) : (writeIlen n s).errc = s.errc := rfl
@[simp] theorem writeIlen_done (n : Nat) (s : State) : (writeIlen n s).done = s.done := rfl
@[simp] theorem writeIlen_det (n : Nat) (s : State) : (writeIlen n s).det = s.det := rfl
@[simp] theorem writeIlen_ridx (n : Nat) (s : State) : (writeIlen n s).ridx = s.ridx := rfl
@[simp] theorem writeIlen_draws (n : Nat) (s : State) : (writeIlen n s).draws = s.draws := rfl
@[simp] theorem writeIlen_pending (n : Nat) (s : State) : (writeIlen n s).pending = s.pending := rfl
@[simp] theorem writeIlen_answers (n : Nat) (s : State) : (writeIlen n s).answers = s.answers := rfl

@[simp] theorem writeDet_cfg (b : Bool) (s : State) : (writeDet b s).cfg = s.cfg := rfl
@[simp] theorem writeDet_inp (b : Bool) (s : State) : (writeDet b s).inp = s.inp := rfl
@[simp] theorem writeDet_ilen (b : Bool) (s : State) : (writeDet b s).ilen = s.ilen := rfl
@[simp] theorem writeDet_wv (b : Bool) (s : State) : (writeDet b s).wv = s.wv := rfl
@[simp] theorem writeDet_ef (b : Bool) (s : State) : (writeDet b s).ef = s.ef := rfl
@[simp] theorem writeDet_efk (b : Bool) (s : State) : (writeDet b s).efk = s.efk := rfl
@[simp] theorem writeDet_cf (b : Bool) (s : State) : (writeDet b s).cf = s.cf := rfl
@[simp] theorem writeDet_cfk (b : Bool) (s : State) : (writeDet b s).cfk = s.cfk := rfl
@[simp] theorem writeDet_epos (b : Bool) (s : State) : (writeDet b s).epos = s.epos := rfl
@[simp] theorem writeDet_dr (b : Bool) (s : State) : (writeDet b s).dr = s.dr := rfl
@[simp] theorem writeDet_drk (b : Bool) (s : State) : (writeDet b s).drk = s.drk := rfl
@[simp] theorem writeDet_errc (b : Bool) (s : State) : (writeDet b s).errc = s.errc := rfl
@[simp] theorem writeDet_done (b : Bool) (s : State) : (writeDet b s).done = s.done := rfl
@[simp] theorem writeDet_det (b : Bool) (s : State) : (writeDet b s).det = b := rfl
@[simp] theorem writeDet_ridx (b : Bool) (s : State) : (writeDet b s).ridx = s.ridx := rfl
@[simp] theorem writeDet_draws (b : Bool) (s : State) : (writeDet b s).draws = s.draws := rfl
@[simp] theorem writeDet_pending (b : Bool) (s : State) : (writeDet b s).pending = s.pending := rfl
@[simp] theorem writeDet_answers (b : Bool) (s : State) : (writeDet b s).answers = s.answers := rfl

@[simp] theorem writeRidx_cfg (v : Word) (s : State) : (writeRidx v s).cfg = s.cfg := rfl
@[simp] theorem writeRidx_inp (v : Word) (s : State) : (writeRidx v s).inp = s.inp := rfl
@[simp] theorem writeRidx_ilen (v : Word) (s : State) : (writeRidx v s).ilen = s.ilen := rfl
@[simp] theorem writeRidx_wv (v : Word) (s : State) : (writeRidx v s).wv = s.wv := rfl
@[simp] theorem writeRidx_ef (v : Word) (s : State) : (writeRidx v s).ef = s.ef := rfl
@[simp] theorem writeRidx_efk (v : Word) (s : State) : (writeRidx v s).efk = s.efk := rfl
@[simp] theorem writeRidx_cf (v : Word) (s : State) : (writeRidx v s).cf = s.cf := rfl
@[simp] theorem writeRidx_cfk (v : Word) (s : State) : (writeRidx v s).cfk = s.cfk := rfl
@[simp] theorem writeRidx_epos (v : Word) (s : State) : (writeRidx v s).epos = s.epos := rfl
@[simp] theorem writeRidx_dr (v : Word) (s : State) : (writeRidx v s).dr = s.dr := rfl
@[simp] theorem writeRidx_drk (v : Word) (s : State) : (writeRidx v s).drk = s.drk := rfl
@[simp] theorem writeRidx_errc (v : Word) (s : State) : (writeRidx v s).errc = s.errc := rfl
@[simp] theorem writeRidx_done (v : Word) (s : State) : (writeRidx v s).done = s.done := rfl
@[simp] theorem writeRidx_det (v : Word) (s : State) : (writeRidx v s).det = s.det := rfl
@[simp] theorem writeRidx_ridx (v : Word) (s : State) : (writeRidx v s).ridx = v := rfl
@[simp] theorem writeRidx_draws (v : Word) (s : State) : (writeRidx v s).draws = s.draws := rfl
@[simp] theorem writeRidx_pending (v : Word) (s : State) : (writeRidx v s).pending = s.pending := rfl
@[simp] theorem writeRidx_answers (v : Word) (s : State) : (writeRidx v s).answers = s.answers := rfl

@[simp] theorem answer_cfg (r : Response) (s : State) : (answer r s).cfg = s.cfg := rfl
@[simp] theorem answer_inp (r : Response) (s : State) : (answer r s).inp = s.inp := rfl
@[simp] theorem answer_ilen (r : Response) (s : State) : (answer r s).ilen = s.ilen := rfl
@[simp] theorem answer_wv (r : Response) (s : State) : (answer r s).wv = s.wv := rfl
@[simp] theorem answer_ef (r : Response) (s : State) : (answer r s).ef = s.ef := rfl
@[simp] theorem answer_efk (r : Response) (s : State) : (answer r s).efk = s.efk := rfl
@[simp] theorem answer_cf (r : Response) (s : State) : (answer r s).cf = s.cf := rfl
@[simp] theorem answer_cfk (r : Response) (s : State) : (answer r s).cfk = s.cfk := rfl
@[simp] theorem answer_epos (r : Response) (s : State) : (answer r s).epos = s.epos := rfl
@[simp] theorem answer_dr (r : Response) (s : State) : (answer r s).dr = s.dr := rfl
@[simp] theorem answer_drk (r : Response) (s : State) : (answer r s).drk = s.drk := rfl
@[simp] theorem answer_errc (r : Response) (s : State) : (answer r s).errc = s.errc := rfl
@[simp] theorem answer_done (r : Response) (s : State) : (answer r s).done = s.done := rfl
@[simp] theorem answer_det (r : Response) (s : State) : (answer r s).det = s.det := rfl
@[simp] theorem answer_ridx (r : Response) (s : State) : (answer r s).ridx = s.ridx := rfl
@[simp] theorem answer_draws (r : Response) (s : State) : (answer r s).draws = s.draws := rfl
@[simp] theorem answer_pending (r : Response) (s : State) : (answer r s).pending = s.pending := rfl
@[simp] theorem answer_answers (r : Response) (s : State) : (answer r s).answers = s.answers ++ [r] := rfl

@[simp] theorem issueCommand_cfg (w : Word) (s : State) : (issueCommand w s).cfg = s.cfg := rfl
@[simp] theorem issueCommand_inp (w : Word) (s : State) : (issueCommand w s).inp = s.inp := rfl
@[simp] theorem issueCommand_ilen (w : Word) (s : State) : (issueCommand w s).ilen = s.ilen := rfl
@[simp] theorem issueCommand_wv (w : Word) (s : State) : (issueCommand w s).wv = s.wv := rfl
@[simp] theorem issueCommand_ef (w : Word) (s : State) : (issueCommand w s).ef = s.ef := rfl
@[simp] theorem issueCommand_efk (w : Word) (s : State) : (issueCommand w s).efk = s.efk := rfl
@[simp] theorem issueCommand_cf (w : Word) (s : State) : (issueCommand w s).cf = s.cf := rfl
@[simp] theorem issueCommand_cfk (w : Word) (s : State) : (issueCommand w s).cfk = s.cfk := rfl
@[simp] theorem issueCommand_epos (w : Word) (s : State) : (issueCommand w s).epos = s.epos := rfl
@[simp] theorem issueCommand_dr (w : Word) (s : State) : (issueCommand w s).dr = s.dr := rfl
@[simp] theorem issueCommand_drk (w : Word) (s : State) : (issueCommand w s).drk = s.drk := rfl
@[simp] theorem issueCommand_errc (w : Word) (s : State) : (issueCommand w s).errc = s.errc := rfl
@[simp] theorem issueCommand_done (w : Word) (s : State) : (issueCommand w s).done = s.done := rfl
@[simp] theorem issueCommand_det (w : Word) (s : State) : (issueCommand w s).det = s.det := rfl
@[simp] theorem issueCommand_ridx (w : Word) (s : State) : (issueCommand w s).ridx = s.ridx := rfl
@[simp] theorem issueCommand_draws (w : Word) (s : State) : (issueCommand w s).draws = s.draws := rfl
@[simp] theorem issueCommand_pending (w : Word) (s : State) : (issueCommand w s).pending = .write 0x0000#16 w :: s.pending := rfl
@[simp] theorem issueCommand_answers (w : Word) (s : State) : (issueCommand w s).answers = s.answers := rfl

@[simp] theorem applyReset_cfg (s : State) : (applyReset s).cfg = s.cfg := rfl
@[simp] theorem applyReset_inp (s : State) : (applyReset s).inp = [] := rfl
@[simp] theorem applyReset_ilen (s : State) : (applyReset s).ilen = 0 := rfl
@[simp] theorem applyReset_wv (s : State) : (applyReset s).wv = [] := rfl
@[simp] theorem applyReset_ef (s : State) : (applyReset s).ef = [] := rfl
@[simp] theorem applyReset_efk (s : State) : (applyReset s).efk = .none := rfl
@[simp] theorem applyReset_cf (s : State) : (applyReset s).cf = [] := rfl
@[simp] theorem applyReset_cfk (s : State) : (applyReset s).cfk = .none := rfl
@[simp] theorem applyReset_epos (s : State) : (applyReset s).epos = 0 := rfl
@[simp] theorem applyReset_dr (s : State) : (applyReset s).dr = [] := rfl
@[simp] theorem applyReset_drk (s : State) : (applyReset s).drk = .none := rfl
@[simp] theorem applyReset_errc (s : State) : (applyReset s).errc = .none := rfl
@[simp] theorem applyReset_done (s : State) : (applyReset s).done = false := rfl
@[simp] theorem applyReset_det (s : State) : (applyReset s).det = false := rfl
@[simp] theorem applyReset_ridx (s : State) : (applyReset s).ridx = 0x0000#16 := rfl
@[simp] theorem applyReset_draws (s : State) : (applyReset s).draws = s.draws := rfl
@[simp] theorem applyReset_pending (s : State) : (applyReset s).pending = s.pending := rfl
@[simp] theorem applyReset_answers (s : State) : (applyReset s).answers = s.answers := rfl

@[simp] theorem countDraw_cfg (s : State) : (countDraw s).cfg = s.cfg := by
  unfold countDraw; split <;> rfl
@[simp] theorem countDraw_inp (s : State) : (countDraw s).inp = s.inp := by
  unfold countDraw; split <;> rfl
@[simp] theorem countDraw_ilen (s : State) : (countDraw s).ilen = s.ilen := by
  unfold countDraw; split <;> rfl
@[simp] theorem countDraw_wv (s : State) : (countDraw s).wv = s.wv := by
  unfold countDraw; split <;> rfl
@[simp] theorem countDraw_ef (s : State) : (countDraw s).ef = s.ef := by
  unfold countDraw; split <;> rfl
@[simp] theorem countDraw_efk (s : State) : (countDraw s).efk = s.efk := by
  unfold countDraw; split <;> rfl
@[simp] theorem countDraw_cf (s : State) : (countDraw s).cf = s.cf := by
  unfold countDraw; split <;> rfl
@[simp] theorem countDraw_cfk (s : State) : (countDraw s).cfk = s.cfk := by
  unfold countDraw; split <;> rfl
@[simp] theorem countDraw_epos (s : State) : (countDraw s).epos = s.epos := by
  unfold countDraw; split <;> rfl
@[simp] theorem countDraw_dr (s : State) : (countDraw s).dr = s.dr := by
  unfold countDraw; split <;> rfl
@[simp] theorem countDraw_drk (s : State) : (countDraw s).drk = s.drk := by
  unfold countDraw; split <;> rfl
@[simp] theorem countDraw_errc (s : State) : (countDraw s).errc = s.errc := by
  unfold countDraw; split <;> rfl
@[simp] theorem countDraw_done (s : State) : (countDraw s).done = s.done := by
  unfold countDraw; split <;> rfl
@[simp] theorem countDraw_det (s : State) : (countDraw s).det = s.det := by
  unfold countDraw; split <;> rfl
@[simp] theorem countDraw_ridx (s : State) : (countDraw s).ridx = s.ridx := by
  unfold countDraw; split <;> rfl
@[simp] theorem countDraw_draws (s : State) :
    (countDraw s).draws = if s.det then s.draws else s.draws + 1 := by
  unfold countDraw; split <;> rfl
@[simp] theorem countDraw_pending (s : State) : (countDraw s).pending = s.pending := by
  unfold countDraw; split <;> rfl
@[simp] theorem countDraw_answers (s : State) : (countDraw s).answers = s.answers := by
  unfold countDraw; split <;> rfl

end Sys2Proof.Machine
end

