-- ==== Sys2Proof/Laws/Operands.lean ====
section
/-! SUPPORT. What the shared operations can do, once each: the validated input, the injection index, the two ways a command
ends, and the common part of each group of commands. -/

namespace Sys2Proof.Machine

@[simp] theorem raiseError_eq (d : DestSet) (e : ErrCode) (s : State) :
    raiseError d e s = .next (setStatus e (emptyDest d s)) := rfl

@[simp] theorem succeed_eq (s : State) : succeed s = .next (setStatus .none s) := rfl

/-! ### The input string -/

theorem symBit_eq_some {c : Sym} {b : Bit} : symBit c = some b ↔ c = if b then 0x31#8 else 0x30#8 := by
  unfold symBit
  cases b <;> constructor <;> intro h
  · by_contra h'; split at h <;> simp_all
  · simp [h]
  · by_contra h'; split at h <;> simp_all
  · simp [h]

theorem symBit_eq_none {c : Sym} : symBit c = none ↔ ¬ (c = 0x30#8 ∨ c = 0x31#8) := by
  unfold symBit
  split <;> simp_all

/-- Where every cell holds a binary symbol, `readBits` gives the bits of those cells in order. -/
theorem readBits_of_binary (m : Memory) (n : Nat) : ∀ i,
    (∀ k < n, m.read (i + k) = 0x30#8 ∨ m.read (i + k) = 0x31#8) →
    readBits m i n = some ((List.range n).map fun k => m.read (i + k) == 0x31#8) := by
  induction n with
  | zero => intro i _; rfl
  | succ n ih =>
    intro i h
    have hs : symBit (m.read i) = some (m.read i == 0x31#8) := by
      have := h 0 (by omega)
      simp only [Nat.add_zero] at this
      rcases this with h | h <;> rw [h] <;> decide
    have := ih (i + 1) fun k hk => by have := h (k + 1) (by omega); rwa [show i + 1 + k = i + (k + 1) by omega]
    simp [readBits, hs, this, List.range_succ_eq_map, Function.comp_def, Nat.add_assoc, Nat.add_comm 1]

/-- Where some cell holds another symbol, `readBits` gives nothing. -/
theorem readBits_of_nonbinary (m : Memory) (n : Nat) : ∀ i,
    ¬ (∀ k < n, m.read (i + k) = 0x30#8 ∨ m.read (i + k) = 0x31#8) → readBits m i n = none := by
  induction n with
  | zero => intro i h; exact absurd (by simp) h
  | succ n ih =>
    intro i h
    cases hs : symBit (m.read i) with
    | none => simp [readBits, hs]
    | some b =>
      have h0 : m.read i = 0x30#8 ∨ m.read i = 0x31#8 := by
        by_contra h'; rw [symBit_eq_none.mpr h'] at hs; simp at hs
      have := ih (i + 1) fun h' => h fun k hk => by
        cases k with
        | zero => exact h0
        | succ k => have := h' k (by omega); rwa [show i + 1 + k = i + (k + 1) by omega] at this
      simp [readBits, hs, this]

/-- `validate` has two outcomes: the string of a valid input, or `InvalidInput`. -/
theorem validate_cases (s : State) :
    (ValidInput s ∧ validate s = .ok (inputBits s)) ∨ (¬ ValidInput s ∧ validate s = .error .invalidInput) := by
  unfold validate
  by_cases h0 : s.ilen = 0
  · exact .inr ⟨by simp [ValidInput, h0], by simp [h0]⟩
  · by_cases hb : ∀ k < s.ilen, s.inp.read k = 0x30#8 ∨ s.inp.read k = 0x31#8
    · refine .inl ⟨⟨h0, hb⟩, ?_⟩
      rw [if_neg h0, readBits_of_binary _ _ 0 (by simpa using hb)]
      simp [inputBits, inputBit]
    · refine .inr ⟨fun h => hb h.2, ?_⟩
      rw [if_neg h0, readBits_of_nonbinary _ _ 0 (by simpa using hb)]

@[simp] theorem length_inputBits (s : State) : (inputBits s).length = s.ilen := by simp [inputBits]

theorem inputBits_getElem? {s : State} {k : Nat} (h : k < s.ilen) : (inputBits s)[k]? = some (inputBit s k) := by
  simp [inputBits, h]

/-! ### The injection index -/

/-- In random mode the index is always below the frame length: the contract of the random source. -/
theorem indexSource_random {n : Nat} {s : State} (hd : s.det = false) (hn : 1 ≤ n) : indexSource n s < n := by
  have := (Config.randIndex s.draws (n - 1)).isLt
  simp only [indexSource, hd]
  simp only [Bool.false_eq_true, if_false]
  omega

/-- `pickIndex` has two outcomes. -/
theorem pickIndex_cases (n : Nat) (s : State) :
    (indexSource n s < n ∧ pickIndex n s = .ok (indexSource n s)) ∨
    (n ≤ indexSource n s ∧ pickIndex n s = .error .indexRange) := by
  unfold pickIndex
  by_cases h : indexSource n s ≥ n
  · exact .inr ⟨h, by simp [h]⟩
  · exact .inl ⟨by omega, by simp [h]⟩

/-! ### `Flip` -/

@[simp] theorem length_flipBit (f : List Bit) (p : Nat) : (flipBit f p).length = f.length := by simp [flipBit]

@[simp] theorem flipBit_nil (p : Nat) : flipBit [] p = [] := by cases p <;> rfl

@[simp] theorem flipBit_cons_zero (b : Bit) (f : List Bit) : flipBit (b :: f) 0 = (!b) :: f := rfl

@[simp] theorem flipBit_cons_succ (b : Bit) (f : List Bit) (p : Nat) :
    flipBit (b :: f) (p + 1) = b :: flipBit f p := rfl

end Sys2Proof.Machine
end

