-- ==== Sys2Proof/Laws/Commands.lean ====
section
/-! SUPPORT. What each group of commands can do, once: every outcome of its common part, with the condition under which it is
taken. Every outcome is a next state. -/

namespace Sys2Proof.Machine

/-- The outcomes of group `LENC` (R69). -/
theorem execLenc_cases (tech : BitVec 4) (s : State) :
    (ValidInput s ∧ ∃ w, lineEncode tech (inputBits s) = some w ∧
      execLenc tech s = .next { s with wv := w, errc := .none, done := true }) ∨
    (ValidInput s ∧ lineEncode tech (inputBits s) = none ∧
      execLenc tech s = .next { s with wv := [], errc := .unsupportedTechnique, done := true }) ∨
    (¬ ValidInput s ∧ execLenc tech s = .next { s with wv := [], errc := .invalidInput, done := true }) := by
  unfold execLenc
  obtain ⟨hv, h⟩ | ⟨hv, h⟩ := validate_cases s
  · rw [h]
    cases hw : lineEncode tech (inputBits s) with
    | none => exact .inr (.inl ⟨hv, rfl, by simp only [hw]; rfl⟩)
    | some w => exact .inl ⟨hv, w, rfl, by simp only [hw]; rfl⟩
  · rw [h]
    exact .inr (.inr ⟨hv, rfl⟩)

/-- The state with the destination set of `ECENC` and `ECRUN` emptied and an error reported (R62, R111). -/
abbrev failedEncode (e : ErrCode) (s : State) : State :=
  { s with ef := [], efk := .none, cf := [], cfk := .none, epos := 0, dr := [], drk := .none,
           errc := e, done := true }

/-- The state with the destination set of `ECDEC` emptied and an error reported. -/
abbrev failedDecode (e : ErrCode) (s : State) : State :=
  { s with dr := [], drk := .none, errc := e, done := true }

/-- The state with the destination set of `INJ` emptied and an error reported. -/
abbrev failedInj (e : ErrCode) (s : State) : State :=
  { s with cf := [], cfk := .none, epos := 0, dr := [], drk := .none, errc := e, done := true }

/-- The outcomes of group `ECENC` (R90). -/
theorem execEcenc_cases (meth : BitVec 4) (s : State) :
    (ValidInput s ∧ ∃ m, methodOf meth.toNat = some m ∧
      execEcenc meth s = .next { s with
        ef := encodeFrame m (inputBits s), efk := m.kind, cf := [], cfk := .none, epos := 0,
        dr := [], drk := .none, errc := .none, done := true }) ∨
    (ValidInput s ∧ methodOf meth.toNat = none ∧
      execEcenc meth s = .next (failedEncode .unsupportedMethod s)) ∨
    (¬ ValidInput s ∧ execEcenc meth s = .next (failedEncode .invalidInput s)) := by
  unfold execEcenc
  obtain ⟨hv, h⟩ | ⟨hv, h⟩ := validate_cases s
  · rw [h]
    cases hm : methodOf meth.toNat with
    | none => exact .inr (.inl ⟨hv, rfl, rfl⟩)
    | some m => exact .inl ⟨hv, m, rfl, rfl⟩
  · rw [h]
    exact .inr (.inr ⟨hv, rfl⟩)

/-- The outcomes of group `ECDEC` (R91). -/
theorem execEcdec_cases (src : BitVec 1) (meth : BitVec 3) (s : State) {f : List Bit} {k : FrameKind}
    (hs : sourceFrame src s = (f, k)) :
    (k = .none ∧ execEcdec src meth s = .next (failedDecode .invalidInput s)) ∨
    (k ≠ .none ∧ methodOf meth.toNat = none ∧
      execEcdec src meth s = .next (failedDecode .unsupportedMethod s)) ∨
    (k ≠ .none ∧ ∃ m, methodOf meth.toNat = some m ∧
      ((k ≠ m.kind ∧ execEcdec src meth s = .next (failedDecode .kindMismatch s)) ∨
       (k = m.kind ∧ ∃ e, decodeFrame m f = .error e ∧
          execEcdec src meth s = .next (failedDecode e s)) ∨
       (k = m.kind ∧ ∃ r, decodeFrame m f = .ok r ∧
          execEcdec src meth s = .next (setStatus .none (writeResult r s))))) := by
  unfold execEcdec
  rw [hs]
  by_cases hk : k = .none
  · exact .inl ⟨hk, by simp [hk]; rfl⟩
  · refine .inr ?_
    simp only [hk, if_false]
    cases hm : methodOf meth.toNat with
    | none => exact .inl ⟨hk, rfl, rfl⟩
    | some m =>
      refine .inr ⟨hk, m, rfl, ?_⟩
      by_cases hkm : k = m.kind
      · refine .inr ?_
        cases hd : decodeFrame m f with
        | error e => exact .inl ⟨hkm, e, rfl, by simp [hkm, hd]; rfl⟩
        | ok r => exact .inr ⟨hkm, r, rfl, by simp [hkm, hd]⟩
      · exact .inl ⟨hkm, by simp [hkm]; rfl⟩

/-- The outcomes of `INJ` (R103). -/
theorem execInj_cases (s : State) :
    (s.efk = .none ∧ execInj s = .next (failedInj .invalidInput s)) ∨
    (s.efk ≠ .none ∧ s.ef.length ≤ indexSource s.ef.length s ∧
      execInj s = .next (failedInj .indexRange (countDraw s))) ∨
    (s.efk ≠ .none ∧ indexSource s.ef.length s < s.ef.length ∧
      execInj s = .next { s with
        cf := flipBit s.ef (indexSource s.ef.length s), cfk := s.efk, epos := indexSource s.ef.length s,
        dr := [], drk := .none, errc := .none, done := true, draws := (countDraw s).draws }) := by
  unfold execInj
  by_cases hk : s.efk = .none
  · exact .inl ⟨hk, by simp [hk]; rfl⟩
  · refine .inr ?_
    simp only [hk, if_false]
    obtain ⟨hi, hp⟩ | ⟨hi, hp⟩ := pickIndex_cases s.ef.length s
    · refine .inr ⟨hk, hi, ?_⟩
      rw [hp]
      simp only [countDraw]
      split <;> rfl
    · exact .inl ⟨hk, hi, by rw [hp]; rfl⟩

/-- The outcomes of group `ECRUN` (R105); `f` is the frame the method builds and `p` the index. -/
theorem execEcrun_cases (meth : BitVec 4) (s : State) :
    (¬ ValidInput s ∧ execEcrun meth s = .next (failedEncode .invalidInput s)) ∨
    (ValidInput s ∧ methodOf meth.toNat = none ∧
      execEcrun meth s = .next (failedEncode .unsupportedMethod s)) ∨
    (ValidInput s ∧ ∃ m f p, methodOf meth.toNat = some m ∧ f = encodeFrame m (inputBits s) ∧
      p = indexSource f.length s ∧
      ((f.length ≤ p ∧ execEcrun meth s = .next (failedEncode .indexRange (countDraw s))) ∨
       (p < f.length ∧ ∃ e, decodeFrame m (flipBit f p) = .error e ∧
          execEcrun meth s = .next (failedEncode e (countDraw s))) ∨
       (p < f.length ∧ ∃ r, decodeFrame m (flipBit f p) = .ok r ∧
          execEcrun meth s =
            .next (setStatus .none (writeResult r
              (writeCf m.kind (flipBit f p) p (writeEf m.kind f (countDraw s)))))))) := by
  unfold execEcrun
  obtain ⟨hv, h⟩ | ⟨hv, h⟩ := validate_cases s
  · rw [h]
    refine .inr ?_
    cases hm : methodOf meth.toNat with
    | none => exact .inl ⟨hv, rfl, rfl⟩
    | some m =>
      refine .inr ⟨hv, m, _, _, rfl, rfl, rfl, ?_⟩
      simp only
      obtain ⟨hi, hp⟩ | ⟨hi, hp⟩ := pickIndex_cases (encodeFrame m (inputBits s)).length s
      · refine .inr ?_
        simp only [hp]
        cases hd : decodeFrame m (flipBit (encodeFrame m (inputBits s))
            (indexSource (encodeFrame m (inputBits s)).length s)) with
        | error e => exact .inl ⟨hi, e, rfl, rfl⟩
        | ok r => exact .inr ⟨hi, r, rfl, rfl⟩
      · exact .inl ⟨hi, by simp only [hp]; rfl⟩
  · rw [h]
    exact .inl ⟨hv, rfl⟩

end Sys2Proof.Machine
end

