-- ==== Sys2Proof/Laws/Crc.lean ====
section
/-! SUPPORT. The building blocks of the CRC-8 proofs: the register's step is linear and loses nothing, and eight bits read as
a number are the register they came from. -/

namespace Sys2Proof.Machine

theorem crcShift_xor (a b : BitVec 8) : crcShift (a ^^^ b) = crcShift a ^^^ crcShift b := by
  unfold crcShift
  rw [BitVec.msb_xor, BitVec.shiftLeft_xor_distrib]
  cases a.msb <;> cases b.msb <;> simp [BitVec.xor_assoc]
  · exact BitVec.xor_comm _ _

/-- The register after a bit, of two registers and two bits at once. -/
theorem crcBit_xor (a b : BitVec 8) (x y : Bit) : crcBit (a ^^^ b) (xor x y) = crcBit a x ^^^ crcBit b y := by
  have h : (a ^^^ b) ^^^ (if xor x y then 0x80#8 else 0x00#8) =
      (a ^^^ (if x then 0x80#8 else 0x00#8)) ^^^ (b ^^^ (if y then 0x80#8 else 0x00#8)) := by
    cases x <;> cases y <;> simp [BitVec.xor_assoc]
    · exact BitVec.xor_comm _ _
  simp only [crcBit, h, crcShift_xor]

/-- The step loses nothing. -/
theorem crcShift_eq_zero : ∀ r : BitVec 8, crcShift r = 0#8 → r = 0#8 := by decide

theorem crcShift_injective {a b : BitVec 8} (h : crcShift a = crcShift b) : a = b := by
  have h1 : crcShift (a ^^^ b) = 0#8 := by rw [crcShift_xor, h, BitVec.xor_self]
  simpa [BitVec.xor_eq_zero_iff] using crcShift_eq_zero _ h1

theorem crcBit_injective {a b : BitVec 8} {x : Bit} (h : crcBit a x = crcBit b x) : a = b := by
  unfold crcBit at h
  iterate 8 replace h := crcShift_injective h
  exact BitVec.xor_left_inj _ |>.mp h

theorem crcBit_not_ne (r : BitVec 8) (x : Bit) : crcBit r (!x) ≠ crcBit r x := by
  intro h
  unfold crcBit at h
  iterate 8 replace h := crcShift_injective h
  have h' : (r ^^^ r) ^^^ (if !x then 0x80#8 else 0x00#8) = (r ^^^ r) ^^^ (if x then 0x80#8 else 0x00#8) := by
    rw [BitVec.xor_assoc, h, BitVec.xor_assoc]
  cases x <;> simp at h'

/-- The register forgets nothing of where it started. -/
theorem foldl_crcBit_injective (d : List Bit) : ∀ {a b : BitVec 8}, d.foldl crcBit a = d.foldl crcBit b → a = b := by
  induction d with
  | nil => intro a b h; exact h
  | cons x d ih => intro a b h; exact crcBit_injective (ih h)

/-- Complementing a data bit changes the checksum, from any start. -/
theorem foldl_crcBit_flipBit (d : List Bit) : ∀ (r : BitVec 8) (j : Nat), j < d.length →
    (flipBit d j).foldl crcBit r ≠ d.foldl crcBit r := by
  induction d with
  | nil => intro r j h; simp at h
  | cons x d ih =>
    intro r j h
    cases j with
    | zero => exact fun h' => crcBit_not_ne r x (foldl_crcBit_injective d h')
    | succ j => exact ih (crcBit r x) j (by simpa using h)

/-- The eight appended bits, read as a binary integer, are the register. -/
theorem bitsNat_byteBits : ∀ r : BitVec 8, bitsNat (byteBits r) = r.toNat := by decide

@[simp] theorem length_byteBits (r : BitVec 8) : (byteBits r).length = 8 := rfl

/-- Eight bits are the bits of the register they read as. -/
theorem byteBits_of_bitsNat {f : List Bit} (h : f.length = 8) {r : BitVec 8} (hr : r.toNat = bitsNat f) :
    byteBits r = f := by
  match f, h with
  | [a, b, c, d, e, g, i, j], _ =>
    have : r = BitVec.ofNat 8 (bitsNat [a, b, c, d, e, g, i, j]) := by rw [← hr]; simp
    rw [this]
    exact (by decide : ∀ a b c d e g i j : Bit,
      byteBits (BitVec.ofNat 8 (bitsNat [a, b, c, d, e, g, i, j])) = [a, b, c, d, e, g, i, j]) a b c d e g i j

end Sys2Proof.Machine
end

