-- ==== Sys2Proof/Laws/Decode.lean ====
section
/-! SUPPORT. The fields of a command word: the word is its three fields joined, the two fields of `ECDEC` are parts of `SEL`, and
each field as a number. -/

namespace Sys2Proof

/-- A word is `RSV`, `OPC` and `SEL`, side by side (R56). -/
theorem word_fields (w : Word) : w = fieldRsv w ++ fieldOpc w ++ fieldSel w := by
  unfold fieldRsv fieldOpc fieldSel
  apply BitVec.eq_of_getLsbD_eq
  intro k hk
  rw [BitVec.getLsbD_append, BitVec.getLsbD_append]
  simp only [BitVec.getLsbD_extractLsb']
  by_cases h1 : k < 4
  · simp [h1]
  · by_cases h2 : k < 8
    · simp [h1, show k - 4 < 4 by omega, show 4 + (k - 4) = k by omega]
    · simp [h1, show ¬ k - 4 < 4 by omega, show 8 + (k - 4 - 4) = k by omega, show k - 4 - 4 < 8 by omega]

theorem fieldSrc_eq (w : Word) : fieldSrc w = (fieldSel w).extractLsb' 3 1 := by
  unfold fieldSrc fieldSel; ext k hk; simp

theorem fieldDecodeMeth_eq (w : Word) : fieldDecodeMeth w = (fieldSel w).extractLsb' 0 3 := by
  unfold fieldDecodeMeth fieldSel; ext k hk; simp

/-- The fields as numbers (R8, R56). -/
theorem toNat_fields (w : Word) :
    (fieldRsv w).toNat = w.toNat / 256 ∧ (fieldOpc w).toNat = w.toNat / 16 % 16 ∧
    (fieldSel w).toNat = w.toNat % 16 ∧ (fieldSrc w).toNat = w.toNat % 16 / 8 ∧
    (fieldDecodeMeth w).toNat = w.toNat % 8 := by
  have := w.isLt
  refine ⟨?_, ?_, ?_, ?_, ?_⟩ <;>
    simp [fieldRsv, fieldOpc, fieldSel, fieldSrc, fieldDecodeMeth, Nat.shiftRight_eq_div_pow] <;> omega

end Sys2Proof
end

