-- ==== Sys2Proof/Laws/Hamming.lean ====
section
/-! SUPPORT. The building blocks of the Hamming codec's proofs: the redundancy count, the slots, the XOR over a set of positions,
the two loops of the encoder and the sum of the syndrome. -/

namespace Sys2Proof.Machine

/-! ### The redundancy count -/

/-- The search stops at the first candidate that is large enough, if the fuel reaches one. -/
theorem rhFrom_least (l : Nat) : ∀ fuel m, l + (m + fuel) + 1 ≤ 2 ^ (m + fuel) →
    (∀ k < m, 2 ^ k < l + k + 1) →
    l + rhFrom l fuel m + 1 ≤ 2 ^ rhFrom l fuel m ∧ ∀ k < rhFrom l fuel m, 2 ^ k < l + k + 1 := by
  intro fuel
  induction fuel with
  | zero => intro m h hk; exact ⟨h, hk⟩
  | succ fuel ih =>
    intro m h hk
    unfold rhFrom
    split
    · next hm =>
      refine ih (m + 1) (by rwa [show m + 1 + fuel = m + (fuel + 1) by omega]) fun k hkm => ?_
      rcases Nat.lt_succ_iff_lt_or_eq.mp hkm with h | rfl
      · exact hk k h
      · exact hm
    · next hm => exact ⟨by omega, hk⟩

/-- The fuel of `rh` is enough. -/
theorem rh_fuel (l : Nat) : l + (0 + (l + 1)) + 1 ≤ 2 ^ (0 + (l + 1)) := by
  induction l with
  | zero => decide
  | succ l ih => rw [show 0 + (l + 1 + 1) = (0 + (l + 1)) + 1 by omega, pow_succ]; omega

/-! ### Slots and checks -/

theorem isSlot_two_pow (i : Nat) : isSlot (2 ^ i) = true := by
  simp [isSlot]

theorem two_pow_log2_of_isSlot {k : Nat} (h : isSlot k = true) : 2 ^ k.log2 = k := by
  simp [isSlot] at h; exact h.2

theorem covers_two_pow (i j : Nat) : covers i (2 ^ j) = decide (j = i) := by
  simp [covers, Nat.testBit_two_pow]

/-! ### The XOR over a set of positions -/

@[simp] theorem xorWhere_nil (p : Nat → Bool) (k : Nat) : xorWhere p k [] = false := rfl

@[simp] theorem xorWhere_cons (p : Nat → Bool) (k : Nat) (b : Bit) (f : List Bit) :
    xorWhere p k (b :: f) = xor (p k && b) (xorWhere p (k + 1) f) := rfl

/-- Complementing one element toggles the XOR of the sets its position is in. -/
theorem xorWhere_flipBit (p : Nat → Bool) : ∀ (f : List Bit) (k e : Nat), e < f.length →
    xorWhere p k (flipBit f e) = xor (p (k + e)) (xorWhere p k f) := by
  intro f
  induction f with
  | nil => intro k e h; simp at h
  | cons b f ih =>
    intro k e h
    cases e with
    | zero => simp [flipBit]; cases p k <;> cases b <;> simp
    | succ e =>
      have := ih (k + 1) e (by simpa using h)
      rw [show flipBit (b :: f) (e + 1) = b :: flipBit f e from rfl, xorWhere_cons, xorWhere_cons, this,
        show k + 1 + e = k + (e + 1) by omega]
      cases p (k + (e + 1)) <;> simp

/-- Writing one element changes the XOR of the sets its position is in by the change of the element. -/
theorem xorWhere_set (p : Nat → Bool) (b : Bit) : ∀ (f : List Bit) (k e : Nat), e < f.length →
    xorWhere p k (f.set e b) = xor (p (k + e) && xor b (f.getD e false)) (xorWhere p k f) := by
  intro f
  induction f with
  | nil => intro k e h; simp at h
  | cons c f ih =>
    intro k e h
    cases e with
    | zero => simp; cases p k <;> cases b <;> cases c <;> simp
    | succ e =>
      have := ih (k + 1) e (by simpa using h)
      simp only [List.set_cons_succ, xorWhere_cons, this, show k + 1 + e = k + (e + 1) by omega,
        List.getD_cons_succ]
      generalize (p (k + (e + 1)) && xor b (f.getD e false)) = x
      cases x <;> simp

/-- Leaving one position out of a set takes its element out of the XOR. -/
theorem xorWhere_except (p : Nat → Bool) (q : Nat) : ∀ (f : List Bit) (k : Nat),
    xorWhere (fun j => p j && j != q) k f =
      xor (decide (k ≤ q) && (p q && f.getD (q - k) false)) (xorWhere p k f) := by
  intro f
  induction f with
  | nil => intro k; simp
  | cons b f ih =>
    intro k
    rw [xorWhere_cons, xorWhere_cons, ih (k + 1)]
    by_cases hq : q = k
    · subst hq; simp
    · by_cases hlt : k < q
      · have h1 : q - k = (q - (k + 1)) + 1 := by omega
        have h2 : (k != q) = true := by simp; omega
        rw [h1, List.getD_cons_succ, h2]
        simp only [show k + 1 ≤ q by omega, show k ≤ q by omega, decide_true, Bool.true_and, Bool.and_true]
        cases (p q && f.getD (q - (k + 1)) false) <;> cases (p k && b) <;> simp
      · have h2 : (k != q) = true := by simp; omega
        simp [show ¬ k + 1 ≤ q by omega, show ¬ k ≤ q by omega, h2]

/-- A set that no position of the sequence is in has the XOR 0. -/
theorem xorWhere_false (p : Nat → Bool) : ∀ (f : List Bit) (k : Nat), (∀ j, k ≤ j → j < k + f.length → p j = false) →
    xorWhere p k f = false := by
  intro f
  induction f with
  | nil => intro k _; rfl
  | cons b f ih =>
    intro k h
    rw [xorWhere_cons, h k (by omega) (by simp), ih (k + 1) fun j h1 h2 => h j (by omega) (by simp; omega)]
    rfl

/-! ### The two loops of the encoder -/

@[simp] theorem length_placeData (n : Nat) : ∀ k d, (placeData n k d).length = n := by
  induction n with
  | zero => intro k d; rfl
  | succ n ih => intro k d; unfold placeData; split <;> simp [ih]

@[simp] theorem length_fillSlot (f : List Bit) (i : Nat) : (fillSlot f i).length = f.length := by simp [fillSlot]

theorem length_foldl_fillSlot (l : List Nat) : ∀ f, (l.foldl fillSlot f).length = f.length := by
  induction l with
  | nil => intro f; rfl
  | cons i l ih => intro f; rw [List.foldl_cons, ih]; simp

/-- Filling slot `i` makes check `i` even and touches no other check. -/
theorem parityCheck_fillSlot {f : List Bit} {i : Nat} (h : 2 ^ i ≤ f.length) (j : Nat) :
    parityCheck j (fillSlot f i) = if j = i then false else parityCheck j f := by
  have hp : 0 < 2 ^ i := by positivity
  unfold parityCheck fillSlot
  rw [xorWhere_set _ _ _ _ _ (by omega), show 1 + (2 ^ i - 1) = 2 ^ i by omega, covers_two_pow]
  by_cases hj : j = i
  · subst hj
    rw [xorWhere_except, covers_two_pow]
    simp only [show 1 ≤ 2 ^ j by omega, decide_true, Bool.true_and, if_true]
    generalize f.getD (2 ^ j - 1) false = x
    generalize xorWhere (covers j) 1 f = y
    cases x <;> cases y <;> rfl
  · simp [hj, show ¬ i = j by omega]

theorem parityCheck_foldl_fillSlot (m : Nat) : ∀ f : List Bit, (∀ i < m, 2 ^ i ≤ f.length) → ∀ j,
    parityCheck j ((List.range m).foldl fillSlot f) = if j < m then false else parityCheck j f := by
  induction m with
  | zero => intro f _ j; simp
  | succ m ih =>
    intro f h j
    rw [List.range_succ, List.foldl_append, List.foldl_cons, List.foldl_nil,
      parityCheck_fillSlot (by rw [length_foldl_fillSlot]; exact h m (by omega)),
      ih f fun i hi => h i (by omega)]
    by_cases h1 : j = m
    · simp [h1]
    · simp [h1, show j < m + 1 ↔ j < m by omega]

/-- Writing a slot leaves the data alone. -/
theorem hamDataFrom_set (b : Bit) : ∀ (f : List Bit) (k e : Nat), isSlot (k + e) = true →
    hamDataFrom k (f.set e b) = hamDataFrom k f := by
  intro f
  induction f with
  | nil => intro k e _; rfl
  | cons c f ih =>
    intro k e h
    cases e with
    | zero => simp at h; simp [hamDataFrom, h]
    | succ e =>
      have := ih (k + 1) e (by rwa [show k + 1 + e = k + (e + 1) by omega])
      simp [hamDataFrom, this]

theorem hamData_foldl_fillSlot (l : List Nat) : ∀ f, hamData (l.foldl fillSlot f) = hamData f := by
  induction l with
  | nil => intro f; rfl
  | cons i l ih =>
    intro f
    have hp : 0 < 2 ^ i := by positivity
    rw [List.foldl_cons, ih]
    exact hamDataFrom_set _ _ _ _ (by rw [show 1 + (2 ^ i - 1) = 2 ^ i by omega]; exact isSlot_two_pow i)

/-- How many of the positions `k, ..., k + n - 1` are no slot. -/
def dataCount : Nat → Nat → Nat
  | 0, _ => 0
  | n + 1, k => (if isSlot k then 0 else 1) + dataCount n (k + 1)

/-- What is placed at exactly as many data positions as there are data bits is the data. -/
theorem hamDataFrom_placeData (n : Nat) : ∀ k d, dataCount n k = d.length → hamDataFrom k (placeData n k d) = d := by
  induction n with
  | zero => intro k d h; simp [dataCount] at h; simp [placeData, hamDataFrom]; exact List.length_eq_zero_iff.mp h.symm
  | succ n ih =>
    intro k d h
    unfold placeData
    by_cases hs : isSlot k = true
    · simp only [dataCount, hs, if_true] at h
      simp only [hs, if_true, hamDataFrom]
      exact ih (k + 1) d (by omega)
    · simp only [dataCount, hs] at h
      cases d with
      | nil => simp at h
      | cons b d =>
        have := ih (k + 1) d (by simp at h; omega)
        simp [hamDataFrom, hs, this]

theorem dataCount_succ (n : Nat) : ∀ k, dataCount (n + 1) k = dataCount n k + if isSlot (k + n) then 0 else 1 := by
  induction n with
  | zero => intro k; simp [dataCount]
  | succ n ih =>
    intro k
    rw [dataCount, ih (k + 1), dataCount, show k + 1 + n = k + (n + 1) by omega]
    omega

/-- The positions `1, ..., n` hold one slot for each power of two up to `n`. -/
theorem dataCount_one {n m : Nat} (h1 : ∀ i, i < m ↔ 2 ^ i ≤ n) : dataCount n 1 + m = n := by
  induction n generalizing m with
  | zero =>
    have : ¬ 0 < m := fun h => by have := (h1 0).mp h; simp at this
    simp [dataCount]; omega
  | succ n ih =>
    rw [dataCount_succ]
    by_cases hs : isSlot (1 + n) = true
    · have hj := two_pow_log2_of_isSlot hs
      generalize (1 + n).log2 = j at hj
      have hm : m = j + 1 := by
        have a1 := (h1 j).mpr (by omega)
        have a2 : ¬ j + 1 < m := fun h => by have := (h1 (j + 1)).mp h; rw [pow_succ] at this; omega
        omega
      have := ih (m := j) fun i => by
        constructor
        · intro hi
          have := Nat.pow_lt_pow_right (a := 2) (by omega) hi
          omega
        · intro hi
          by_contra hc
          have := Nat.pow_le_pow_right (n := 2) (by omega) (show j ≤ i by omega)
          omega
      simp only [hs, if_true]
      omega
    · have := ih (m := m) fun i => by
        rw [h1 i]
        constructor
        · intro hi
          have : 2 ^ i ≠ 1 + n := fun h => hs (h ▸ isSlot_two_pow i)
          omega
        · intro hi; omega
      simp only [hs]
      simp
      omega

/-! ### The sum of the syndrome -/

/-- A sum of distinct powers of two has exactly those bits. -/
theorem sum_powers (t : Nat → Bool) (r : Nat) :
    ((List.range r).foldl (fun a i => if t i then a + 2 ^ i else a) 0 < 2 ^ r) ∧
    ∀ j, ((List.range r).foldl (fun a i => if t i then a + 2 ^ i else a) 0).testBit j = (decide (j < r) && t j) := by
  induction r with
  | zero => simp
  | succ r ih =>
    obtain ⟨hlt, hbit⟩ := ih
    rw [List.range_succ, List.foldl_append, List.foldl_cons, List.foldl_nil]
    generalize (List.range r).foldl (fun a i => if t i then a + 2 ^ i else a) 0 = a at hlt hbit
    by_cases ht : t r = true
    · simp only [ht, if_true]
      refine ⟨by rw [pow_succ]; omega, fun j => ?_⟩
      rw [Nat.add_comm]
      by_cases hj : j < r
      · rw [Nat.testBit_two_pow_add_gt hj, hbit]; simp [hj, show j < r + 1 by omega]
      · by_cases hj' : j = r
        · subst hj'
          rw [Nat.testBit_two_pow_add_eq, hbit]; simp [ht]
        · rw [Nat.testBit_lt_two_pow]
          · simp [show ¬ j < r + 1 by omega]
          · have := Nat.pow_le_pow_right (n := 2) (by omega) (show r + 1 ≤ j by omega)
            rw [pow_succ] at this; omega
    · simp only [ht]
      refine ⟨by simp; rw [pow_succ]; omega, fun j => ?_⟩
      simp only [Bool.false_eq_true, if_false, hbit]
      by_cases hj' : j = r
      · subst hj'; simp [ht]
      · simp [show j < r + 1 ↔ j < r by omega]

end Sys2Proof.Machine
end

