-- ==== Sys2Proof/Laws/Memory.lean ====
section
/-! SUPPORT. The laws of the cells of `IN`: a read after a write, and the canonical form that every write keeps. -/

namespace Sys2Proof.Machine

@[simp] theorem Memory.read_nil (a : Nat) : Memory.read [] a = Memory.unlisted := rfl

theorem Memory.read_cons (b : Nat) (v : Sym) (m : Memory) (a : Nat) :
    Memory.read ((b, v) :: m) a = if a = b then v else Memory.read m a := rfl

/-- A cell below every listed one is not listed. -/
theorem Memory.read_below (m : Memory) (a : Nat) (h : ∀ c ∈ m, a < c.1) : m.read a = Memory.unlisted := by
  induction m with
  | nil => rfl
  | cons c m ih =>
    obtain ⟨b, v⟩ := c
    have hb : a < b := h (b, v) (by simp)
    rw [Memory.read_cons, if_neg (by omega), ih fun c hc => h c (by simp [hc])]

/-- The entry of a listed cell is what it reads as. -/
theorem Memory.read_of_mem {m : Memory} (hm : m.wf) {c : Host.Cell} (hc : c ∈ m) : m.read c.1 = c.2 := by
  induction m with
  | nil => simp at hc
  | cons d m ih =>
    obtain ⟨b, v⟩ := d
    obtain ⟨hp, hz⟩ := hm
    rw [List.pairwise_cons] at hp
    rcases List.mem_cons.mp hc with rfl | hc
    · simp [Memory.read_cons]
    · have := hp.1 c hc
      rw [Memory.read_cons, if_neg (by simp at this; omega), ih ⟨hp.2, fun c hc => hz c (by simp [hc])⟩ hc]

/-- Every entry after a write is the written one or an old one. -/
theorem Memory.mem_write {m : Memory} {a : Nat} {v : Sym} {c : Host.Cell} (h : c ∈ m.write a v) :
    (c = (a, v) ∧ v ≠ Memory.unlisted) ∨ c ∈ m := by
  induction m with
  | nil =>
    by_cases hv : v = Memory.unlisted
    · simp [Memory.write, hv] at h
    · simp [Memory.write, hv] at h; exact .inl ⟨h, hv⟩
  | cons d m ih =>
    obtain ⟨b, u⟩ := d
    simp only [Memory.write] at h
    split at h
    · split at h
      · exact .inr h
      · rcases List.mem_cons.mp h with h | h
        · exact .inl ⟨h, ‹_›⟩
        · exact .inr h
    · split at h
      · split at h
        · exact .inr (by simp [h])
        · rcases List.mem_cons.mp h with h | h
          · exact .inl ⟨h, ‹_›⟩
          · exact .inr (by simp [h])
      · rcases List.mem_cons.mp h with h | h
        · exact .inr (by simp [h])
        · rcases ih h with h | h
          · exact .inl h
          · exact .inr (by simp [h])

/-- A write keeps the canonical form. -/
theorem Memory.write_wf {m : Memory} (hm : m.wf) (a : Nat) (v : Sym) : (m.write a v).wf := by
  refine ⟨?_, fun c hc => ?_⟩
  · induction m with
    | nil => simp only [Memory.write]; split <;> simp
    | cons d m ih =>
      obtain ⟨b, u⟩ := d
      obtain ⟨hp, hz⟩ := hm
      have hp' := List.pairwise_cons.mp hp
      simp only [Memory.write]
      split
      · split
        · exact hp
        · refine List.pairwise_cons.mpr ⟨fun c hc => ?_, hp⟩
          rcases List.mem_cons.mp hc with rfl | hc
          · assumption
          · have := hp'.1 c hc; simp at this ⊢; omega
      · split
        · subst a
          split
          · exact hp'.2
          · exact List.pairwise_cons.mpr ⟨fun c hc => hp'.1 c hc, hp'.2⟩
        · refine List.pairwise_cons.mpr
            ⟨fun c hc => ?_, ih ⟨hp'.2, fun c hc => hz c (by simp [hc])⟩⟩
          rcases Memory.mem_write hc with ⟨rfl, -⟩ | hc
          · simp; omega
          · exact hp'.1 c hc
  · rcases Memory.mem_write hc with ⟨rfl, hv⟩ | hc
    · exact hv
    · exact hm.2 c hc

/-- A write to one of the first `n` cells keeps every listed cell among them. -/
theorem Memory.write_below {m : Memory} {n a : Nat} (hm : m.below n) (ha : a < n) (v : Sym) :
    (m.write a v).below n := by
  intro c hc
  rcases Memory.mem_write hc with ⟨rfl, -⟩ | hc
  · exact ha
  · exact hm c hc

/-- Read after write. -/
theorem Memory.read_write {m : Memory} (hm : m.wf) (a : Nat) (v : Sym) (x : Nat) :
    (m.write a v).read x = if x = a then v else m.read x := by
  induction m with
  | nil =>
    simp only [Memory.write]
    split
    · simp_all
    · simp [Memory.read_cons]
  | cons d m ih =>
    obtain ⟨b, u⟩ := d
    obtain ⟨hp, hz⟩ := hm
    have hp' := List.pairwise_cons.mp hp
    have ih := ih ⟨hp'.2, fun c hc => hz c (by simp [hc])⟩
    simp only [Memory.write]
    split
    · split
      · by_cases hx : x = a
        · rw [if_pos hx, Memory.read_below _ x]
          · simp_all
          · intro c hc
            rcases List.mem_cons.mp hc with rfl | hc
            · simp; omega
            · have := hp'.1 c hc; simp at this ⊢; omega
        · rw [if_neg hx]
      · simp [Memory.read_cons]
    · split
      · subst a
        split
        · by_cases hx : x = b
          · rw [if_pos hx, Memory.read_below _ x]
            · simp_all
            · intro c hc; have := hp'.1 c hc; simp at this ⊢; omega
          · simp [Memory.read_cons, hx]
        · simp only [Memory.read_cons]; split <;> rfl
      · simp only [Memory.read_cons, ih]
        by_cases hx : x = b
        · rw [if_pos hx, if_pos hx, if_neg (by omega)]
        · rw [if_neg hx, if_neg hx]

/-- In canonical form equal contents are equal lists. -/
theorem Memory.ext_of_read {m m' : Memory} (hm : m.wf) (hm' : m'.wf) (h : ∀ a, m.read a = m'.read a) : m = m' := by
  induction m generalizing m' with
  | nil =>
    cases m' with
    | nil => rfl
    | cons c m' =>
      have := h c.1
      rw [Memory.read_of_mem hm' (by simp)] at this
      exact absurd this.symm (hm'.2 c (by simp))
  | cons c m ih =>
    cases m' with
    | nil =>
      have := h c.1
      rw [Memory.read_of_mem hm (by simp)] at this
      exact absurd this (hm.2 c (by simp))
    | cons c' m' =>
      obtain ⟨b, v⟩ := c
      obtain ⟨b', v'⟩ := c'
      have hp := List.pairwise_cons.mp hm.1
      have hp' := List.pairwise_cons.mp hm'.1
      have hv : v ≠ Memory.unlisted := hm.2 (b, v) (by simp)
      have hv' : v' ≠ Memory.unlisted := hm'.2 (b', v') (by simp)
      have hlt : ¬ b < b' := by
        intro hb
        have h1 := h b
        rw [Memory.read_cons, if_pos rfl, Memory.read_below _ b] at h1
        · exact hv h1
        · intro c hc
          rcases List.mem_cons.mp hc with rfl | hc
          · exact hb
          · have := hp'.1 c hc; simp at this ⊢; omega
      have hgt : ¬ b' < b := by
        intro hb
        have h1 := h b'
        rw [Memory.read_below _ b', Memory.read_cons, if_pos rfl] at h1
        · exact hv' h1.symm
        · intro c hc
          rcases List.mem_cons.mp hc with rfl | hc
          · exact hb
          · have := hp.1 c hc; simp at this ⊢; omega
      obtain rfl : b = b' := by omega
      have h1 := h b
      simp only [Memory.read_cons, if_true] at h1
      subst h1
      congr 1
      refine ih ⟨hp.2, fun c hc => hm.2 c (by simp [hc])⟩ ⟨hp'.2, fun c hc => hm'.2 c (by simp [hc])⟩ fun a => ?_
      have h2 := h a
      simp only [Memory.read_cons] at h2
      by_cases ha : a = b
      · subst ha
        rw [Memory.read_below m a fun c hc => hp.1 c hc, Memory.read_below m' a fun c hc => hp'.1 c hc]
      · simpa [ha] using h2

end Sys2Proof.Machine
end

