-- ==== Sys2Proof/Laws/PerInstr.lean ====
section
/-! SUPPORT. Per-instruction families. -/

namespace Sys2Proof.Laws

/-- The encoder gives a well-formed command word: `RSV` is 0, the group is known and its selector has a reading (R56 to
R59). -/
def WordForm.Statement (i : Instr) : Prop := wordWellFormed (encode i) = true

theorem WordForm.clr : WordForm.Statement .clr := by rfl
theorem WordForm.lencNrzl : WordForm.Statement .lencNrzl := by rfl
theorem WordForm.lencNrzi : WordForm.Statement .lencNrzi := by rfl
theorem WordForm.lencRz : WordForm.Statement .lencRz := by rfl
theorem WordForm.lencMan : WordForm.Statement .lencMan := by rfl
theorem WordForm.lencDman : WordForm.Statement .lencDman := by rfl
theorem WordForm.lencAmi : WordForm.Statement .lencAmi := by rfl
theorem WordForm.lencPst : WordForm.Statement .lencPst := by rfl
theorem WordForm.ecrunH : WordForm.Statement .ecrunH := by rfl
theorem WordForm.ecrunC : WordForm.Statement .ecrunC := by rfl
theorem WordForm.henc : WordForm.Statement .henc := by rfl
theorem WordForm.cenc : WordForm.Statement .cenc := by rfl
theorem WordForm.hcorC : WordForm.Statement .hcorC := by rfl
theorem WordForm.cdetC : WordForm.Statement .cdetC := by rfl
theorem WordForm.hcorE : WordForm.Statement .hcorE := by rfl
theorem WordForm.cdetE : WordForm.Statement .cdetE := by rfl
theorem WordForm.inj : WordForm.Statement .inj := by rfl

end Sys2Proof.Laws
end

