-- ==== Sys2Proof/Laws/Port.lean ====
section
/-! SUPPORT. What the invariants bound, and a host read window by window: in a state that meets the invariants no buffer reaches
past its window, so the window of an address alone says which buffer it reads. -/

namespace Sys2Proof.Machine

theorem rh_le {n : Nat} (h : n ≤ 2048) : rh n ≤ 12 := by
  have := (rhFrom_least n (n + 1) 0 (rh_fuel n) (by simp)).2
  by_contra hc
  have := this 12 (by unfold rh at hc; omega)
  omega

theorem fmax_le {n : Nat} (h : n ≤ 2048) : fmax n ≤ 2060 := by
  have := rh_le h
  unfold fmax
  omega

/-- No buffer reaches past its window (R6, R44). -/
theorem State.Inv.bounds {s : State} (h : s.Inv) :
    s.cfg.nmax ≤ 2048 ∧ s.ilen ≤ 2048 ∧ s.wv.length ≤ 4096 ∧ s.ef.length ≤ 2060 ∧ s.cf.length ≤ 2060 ∧
    s.dr.length ≤ 2060 ∧ s.epos ≤ 2060 := by
  have h0 := h.config.2
  have := fmax_le h0
  have h1 := h.ilenBound
  have h2 := h.wlenBound
  have h3 := h.eflenBound
  have h4 := h.cflenBound
  have h5 := h.drlenBound
  unfold wmax at h2
  refine ⟨h0, by omega, by omega, by omega, by omega, by omega, ?_⟩
  by_cases hk : s.cfk = .none
  · have := h.eposEmpty hk; omega
  · have := h.cfFlip hk; omega

theorem toNat_natWord {n : Nat} (h : n < 65536) : (natWord n).toNat = n := by
  simp [natWord, BitVec.toNat_ofNat]; omega

theorem toNat_bitWord (b : Bit) : (bitWord b).toNat = b.toNat := by cases b <;> rfl

theorem toNat_symWord (c : Sym) : (symWord c).toNat = c.toNat := by
  have := c.isLt
  simp [symWord]; omega

/-- The addresses below the windows: the registers (R41). -/
def registerRead (n : Nat) (s : State) : Response :=
  if n = 0x0000 then .err
  else if n = 0x0001 then .okv (statusWord s)
  else if n = 0x0002 then .okv (ctrlWord s)
  else if n = 0x0003 then .okv s.ridx
  else if n = 0x0004 then .okv (natWord s.ilen)
  else if n = 0x0005 then .okv (natWord s.wv.length)
  else if n = 0x0006 then .okv (natWord s.ef.length)
  else if n = 0x0007 then .okv (natWord s.cf.length)
  else if n = 0x0008 then .okv (natWord s.dr.length)
  else if n = 0x0009 then .okv (natWord s.epos)
  else if n = 0x000A then .okv (kindWord s)
  else .err

/-- Cell `n` of the `IN` window. -/
def inputRead (n : Nat) (s : State) : Response :=
  if n < s.cfg.nmax then .okv (symWord (s.inp.read n)) else .err

theorem bufferCell_beyond {α : Type} (w : α → Word) {l : List α} {k : Nat} (h : l.length ≤ k) :
    bufferCell w l k = .err := by
  simp [bufferCell, List.getElem?_eq_none h]

/-- A host read, by the window of its address alone. -/
theorem hostRead_by_window {s : State} (h : s.Inv) (a : Word) : hostRead a s =
    if a.toNat < 0x1000 then registerRead a.toNat s
    else if a.toNat < 0x2000 then inputRead (a.toNat - 0x1000) s
    else if a.toNat < 0x3000 then bufferCell levelWord s.wv (a.toNat - 0x2000)
    else if a.toNat < 0x4000 then bufferCell bitWord s.ef (a.toNat - 0x3000)
    else if a.toNat < 0x5000 then bufferCell bitWord s.cf (a.toNat - 0x4000)
    else if a.toNat < 0x6000 then bufferCell bitWord s.dr (a.toNat - 0x5000)
    else .err := by
  have hb := h.bounds
  unfold hostRead
  by_cases h1 : a.toNat < 0x1000
  · rw [if_pos h1]
    unfold registerRead
    repeat (first | (refine if_congr Iff.rfl rfl ?_))
    repeat rw [if_neg (by omega)]
  · rw [if_neg h1]
    iterate 11 rw [if_neg (by omega)]
    by_cases h2 : a.toNat < 0x2000
    · rw [if_pos h2]
      unfold inputRead
      by_cases h3 : a.toNat - 0x1000 < s.cfg.nmax
      · rw [if_pos (by omega), if_pos h3]
      · rw [if_neg (by omega), if_neg h3]
        repeat rw [if_neg (by omega)]
    · rw [if_neg h2, if_neg (by omega)]
      by_cases h3 : a.toNat < 0x3000
      · rw [if_pos h3]
        by_cases h4 : a.toNat - 0x2000 < s.wv.length
        · rw [if_pos (by omega)]
        · rw [if_neg (by omega), bufferCell_beyond _ (Nat.not_lt.mp h4)]
          repeat rw [if_neg (by omega)]
      · rw [if_neg h3, if_neg (by omega)]
        by_cases h3 : a.toNat < 0x4000
        · rw [if_pos h3]
          by_cases h4 : a.toNat - 0x3000 < s.ef.length
          · rw [if_pos (by omega)]
          · rw [if_neg (by omega), bufferCell_beyond _ (Nat.not_lt.mp h4)]
            repeat rw [if_neg (by omega)]
        · rw [if_neg h3, if_neg (by omega)]
          by_cases h3 : a.toNat < 0x5000
          · rw [if_pos h3]
            by_cases h4 : a.toNat - 0x4000 < s.cf.length
            · rw [if_pos (by omega)]
            · rw [if_neg (by omega), bufferCell_beyond _ (Nat.not_lt.mp h4)]
              repeat rw [if_neg (by omega)]
          · rw [if_neg h3, if_neg (by omega)]
            by_cases h3 : a.toNat < 0x6000
            · rw [if_pos h3]
              by_cases h4 : a.toNat - 0x5000 < s.dr.length
              · rw [if_pos (by omega)]
              · rw [if_neg (by omega), bufferCell_beyond _ (Nat.not_lt.mp h4)]
            · rw [if_neg h3, if_neg (by omega)]

end Sys2Proof.Machine
end

