-- ==== Sys2Proof/Laws/Step.lean ====
section
/-! SUPPORT. What a command word and a step can do, once. -/

namespace Sys2Proof.Machine

/-- What no command word changes: the parameters, `CTRL`, `RIDX`, the pending events and the answers. -/
structure Untouched (s t : State) : Prop where
  cfg : t.cfg = s.cfg
  det : t.det = s.det
  ridx : t.ridx = s.ridx
  pending : t.pending = s.pending
  answers : t.answers = s.answers

@[simp] theorem emptyDest_cfg (d : DestSet) (s : State) : (emptyDest d s).cfg = s.cfg := by cases d <;> rfl

theorem writeResult_untouched (r : DecodeResult) (s : State) : Untouched s (writeResult r s) := by
  cases r <;> exact ⟨rfl, rfl, rfl, rfl, rfl⟩

theorem Untouched.setStatus {s t : State} (h : Untouched s t) (e : ErrCode) : Untouched s (setStatus e t) :=
  ⟨h.cfg, h.det, h.ridx, h.pending, h.answers⟩

theorem Untouched.of_countDraw {s t : State} (h : Untouched (countDraw s) t) : Untouched s t := by
  obtain ⟨h1, h2, h3, h4, h5⟩ := h
  simp only [countDraw_cfg, countDraw_det, countDraw_ridx, countDraw_pending, countDraw_answers] at h1 h2 h3 h4 h5
  exact ⟨h1, h2, h3, h4, h5⟩

theorem execLenc_next (tech : BitVec 4) (s : State) : ∃ t, execLenc tech s = .next t ∧ Untouched s t := by
  obtain ⟨-, w, -, h⟩ | ⟨-, -, h⟩ | ⟨-, h⟩ := execLenc_cases tech s <;> exact ⟨_, h, rfl, rfl, rfl, rfl, rfl⟩

theorem execEcenc_next (meth : BitVec 4) (s : State) : ∃ t, execEcenc meth s = .next t ∧ Untouched s t := by
  obtain ⟨-, m, -, h⟩ | ⟨-, -, h⟩ | ⟨-, h⟩ := execEcenc_cases meth s <;> exact ⟨_, h, rfl, rfl, rfl, rfl, rfl⟩

theorem execEcdec_next (src : BitVec 1) (meth : BitVec 3) (s : State) :
    ∃ t, execEcdec src meth s = .next t ∧ Untouched s t := by
  obtain ⟨-, h⟩ | ⟨-, -, h⟩ | ⟨-, m, -, ⟨-, h⟩ | ⟨-, e, -, h⟩ | ⟨-, r, -, h⟩⟩ :=
    execEcdec_cases src meth s (f := (sourceFrame src s).1) (k := (sourceFrame src s).2) rfl
  · exact ⟨_, h, rfl, rfl, rfl, rfl, rfl⟩
  · exact ⟨_, h, rfl, rfl, rfl, rfl, rfl⟩
  · exact ⟨_, h, rfl, rfl, rfl, rfl, rfl⟩
  · exact ⟨_, h, rfl, rfl, rfl, rfl, rfl⟩
  · exact ⟨_, h, (writeResult_untouched r s).setStatus _⟩

theorem execInj_next (s : State) : ∃ t, execInj s = .next t ∧ Untouched s t := by
  obtain ⟨-, h⟩ | ⟨-, -, h⟩ | ⟨-, -, h⟩ := execInj_cases s
  · exact ⟨_, h, rfl, rfl, rfl, rfl, rfl⟩
  · exact ⟨_, h, Untouched.of_countDraw ⟨rfl, rfl, rfl, rfl, rfl⟩⟩
  · exact ⟨_, h, rfl, rfl, rfl, rfl, rfl⟩

theorem execEcrun_next (meth : BitVec 4) (s : State) : ∃ t, execEcrun meth s = .next t ∧ Untouched s t := by
  obtain ⟨-, h⟩ | ⟨-, -, h⟩ | ⟨-, m, f, p, -, -, -, ⟨-, h⟩ | ⟨-, e, -, h⟩ | ⟨-, r, -, h⟩⟩ := execEcrun_cases meth s
  · exact ⟨_, h, rfl, rfl, rfl, rfl, rfl⟩
  · exact ⟨_, h, rfl, rfl, rfl, rfl, rfl⟩
  · exact ⟨_, h, Untouched.of_countDraw ⟨rfl, rfl, rfl, rfl, rfl⟩⟩
  · exact ⟨_, h, Untouched.of_countDraw ⟨rfl, rfl, rfl, rfl, rfl⟩⟩
  · refine ⟨_, h, Untouched.setStatus (Untouched.of_countDraw ?_) _⟩
    cases r <;> exact ⟨rfl, rfl, rfl, rfl, rfl⟩

/-- Every command answers a next state, and none of them touches what the host owns. -/
theorem exec_next (i : Instr) (s : State) : ∃ t, exec i s = .next t ∧ Untouched s t := by
  cases i
  case clr => exact ⟨_, rfl, rfl, rfl, rfl, rfl, rfl⟩
  case inj => exact execInj_next s
  case ecrunH => exact execEcrun_next 0 s
  case ecrunC => exact execEcrun_next 1 s
  case henc => exact execEcenc_next 0 s
  case cenc => exact execEcenc_next 1 s
  case hcorC => exact execEcdec_next 0 0 s
  case cdetC => exact execEcdec_next 0 1 s
  case hcorE => exact execEcdec_next 1 0 s
  case cdetE => exact execEcdec_next 1 1 s
  case lencNrzl => exact execLenc_next 0 s
  case lencNrzi => exact execLenc_next 1 s
  case lencRz => exact execLenc_next 2 s
  case lencMan => exact execLenc_next 3 s
  case lencDman => exact execLenc_next 4 s
  case lencAmi => exact execLenc_next 5 s
  case lencPst => exact execLenc_next 6 s

/-- A word that is no command answers a next state too. -/
theorem execRejected_next (r : Rejection) (s : State) : ∃ t, execRejected r s = .next t ∧ Untouched s t := by
  cases r with
  | illegalCommand => exact ⟨_, rfl, rfl, rfl, rfl, rfl, rfl⟩
  | unsupportedTechnique tech => exact execLenc_next tech s
  | unsupportedRunMethod meth => exact execEcrun_next meth s
  | unsupportedEncodeMethod meth => exact execEcenc_next meth s
  | unsupportedDecodeMethod src meth => exact execEcdec_next src meth s

/-- Every one of the 65536 words answers a next state. -/
theorem execWord_next (w : Word) (s : State) : ∃ t, execWord w s = .next t ∧ Untouched s t := by
  unfold execWord
  cases decode w with
  | ok i => exact exec_next i s
  | error r => exact execRejected_next r s

/-- The states that `hostStore` can give, one for each writable cell. -/
theorem hostStore_cases {a v : Word} {s t : State} (h : hostStore a v s = some t) :
    (a.toNat = 2 ∧ v.toNat ≤ 1 ∧ t = writeDet (v == 1#16) s) ∨
    (a.toNat = 3 ∧ t = writeRidx v s) ∨
    (a.toNat = 4 ∧ v.toNat ≤ s.cfg.nmax ∧ t = writeIlen v.toNat s) ∨
    (0x1000 ≤ a.toNat ∧ a.toNat < 0x1000 + s.cfg.nmax ∧ v.toNat ≤ 0xFF ∧
      t = writeCell (a.toNat - 0x1000) (v.setWidth 8) s) := by
  unfold hostStore at h
  dsimp only at h
  repeat' split at h
  all_goals simp_all

/-- What a step can do: nothing with nothing pending, an answered read, an accepted or refused write, a command, a reset. -/
theorem step_cases (s : State) :
    (s.pending = [] ∧ step s = .next s) ∨
    ∃ e rest, s.pending = e :: rest ∧
      ((∃ a, e = .read a ∧
          step s = .next (answer (hostRead a s) { s with pending := rest })) ∨
       (∃ a v t, e = .write a v ∧ a ≠ 0#16 ∧ hostStore a v { s with pending := rest } = some t ∧
          step s = .next (answer .ok t)) ∨
       (∃ a v, e = .write a v ∧ a ≠ 0#16 ∧ hostStore a v { s with pending := rest } = none ∧
          step s = .next (answer .err { s with pending := rest })) ∨
       (∃ w t, e = .write 0#16 w ∧ execWord w { s with pending := rest } = .next t ∧
          step s = .next (answer .ok t)) ∨
       (e = .rst ∧ step s = .next (applyReset { s with pending := rest }))) := by
  unfold step
  cases hp : s.pending with
  | nil => exact .inl ⟨rfl, rfl⟩
  | cons e rest =>
    refine .inr ⟨e, rest, rfl, ?_⟩
    cases e with
    | read a => exact .inl ⟨a, rfl, rfl⟩
    | rst => exact .inr (.inr (.inr (.inr ⟨rfl, rfl⟩)))
    | write a v =>
      simp only [perform, hostWrite]
      by_cases ha : a = 0#16
      · subst ha
        obtain ⟨t, ht, -⟩ := execWord_next v { s with pending := rest }
        exact .inr (.inr (.inr (.inl ⟨v, t, rfl, ht, by simp [ht]⟩)))
      · rw [if_neg ha]
        cases hs : hostStore a v { s with pending := rest } with
        | some t => exact .inr (.inl ⟨a, v, t, rfl, ha, hs, by simp⟩)
        | none => exact .inr (.inr (.inl ⟨a, v, rfl, ha, hs, by simp⟩))

end Sys2Proof.Machine
end

