-- ==== Sys2Proof/Machine/HostScript.lean ====
section
/-! DEFINITION. The host-script notation (30_encoding.md R66, R67): what each line sends to the port. The engine sees only the
transactions, so nothing of the machine is defined from this file. -/

namespace Sys2Proof.Machine

/-- The five buffer windows, by name (R44). -/
inductive Window where
  /-- `IN` -/
  | inp
  /-- `WV` -/
  | wv
  /-- `EF` -/
  | ef
  /-- `CF` -/
  | cf
  /-- `DR` -/
  | dr
  deriving DecidableEq, Repr

/-- The base address of a window (R44). -/
def Window.base : Window → Nat
  | .inp => 0x1000
  | .wv => 0x2000
  | .ef => 0x3000
  | .cf => 0x4000
  | .dr => 0x5000

/-- `BUF+i`, the address of cell `i` (R44, R66). -/
def Window.cell (b : Window) (i : Nat) : Word := BitVec.ofNat 16 (b.base + i)

/-- The address of a buffer's length register (R27, R28, R41). -/
def Window.lengthRegister : Window → Word
  | .inp => 0x0004#16
  | .wv => 0x0005#16
  | .ef => 0x0006#16
  | .cf => 0x0007#16
  | .dr => 0x0008#16

/-- The content of a buffer's length register. -/
def Window.length (s : State) : Window → Nat
  | .inp => s.ilen
  | .wv => s.wv.length
  | .ef => s.ef.length
  | .cf => s.cf.length
  | .dr => s.dr.length

/-- One line of a host script (R66), the pseudo-instructions of R67 included. -/
inductive ScriptLine where
  /-- `WR <addr>, <value>` -/
  | wr (a v : Word)
  /-- `RD <addr>` -/
  | rd (a : Word)
  /-- a mnemonic: the word of R61 -/
  | mnemonic (i : Instr)
  /-- `CMD <value>`, for a word that has no mnemonic -/
  | cmd (w : Word)
  /-- `LDS "<c0 c1 ...>"`, with the character codes -/
  | lds (codes : List Sym)
  /-- `SETIDX <k>` -/
  | setidx (k : Word)
  /-- `RANDOM` -/
  | random
  /-- `RDBUF <BUF>` -/
  | rdbuf (b : Window)
  deriving DecidableEq, Repr

/-- The transactions of a line met in state `s`; only `RDBUF` looks at the state, for the length it has read (R66, R67).
Log entry 12. -/
def ScriptLine.expand (s : State) : ScriptLine → List HostEvent
  | .wr a v => [.write a v]
  | .rd a => [.read a]
  | .mnemonic i => [.write 0x0000#16 (encode i)]
  | .cmd w => [.write 0x0000#16 w]
  | .lds codes =>
    codes.zipIdx.map (fun c => .write (Window.inp.cell c.2) (c.1.setWidth 16)) ++
      [.write 0x0004#16 (BitVec.ofNat 16 codes.length)]
  | .setidx k => [.write 0x0002#16 1#16, .write 0x0003#16 k]
  | .random => [.write 0x0002#16 0#16]
  | .rdbuf b => .read b.lengthRegister :: (List.range (b.length s)).map fun i => .read (b.cell i)

/-- The host issues a line: its transactions wait behind those already pending (R50). -/
def issueLine (l : ScriptLine) (s : State) : State := { s with pending := s.pending ++ l.expand s }

end Sys2Proof.Machine
end

