-- ==== Sys2Proof/Tests/Slice0.lean ====
section
/-! SUPPORT. The model's own tests. Every expected value is the spec's: the words of 30_encoding.md R61, the worked examples of the
command rules, and the vectors of 95_test_vectors.md. After them, for each statement of
Sys2Proof/Certificates/Slice0/Obligations.lean that has hypotheses, a state and operands that meet them, clause by clause and at the
ends of each range. -/

namespace Sys2Proof.Tests

open Sys2Proof.Machine

/-! ### Small states -/

/-- The reset state with `symbols` in `IN` and their number in `ILEN` (the `LDS` of R67). No symbol may be 0. -/
def loaded (symbols : List Sym) : State :=
  { State.reset with inp := symbols.zipIdx.map fun c => (c.2, c.1), ilen := symbols.length }

/-- A bit string from its characters (R9). -/
def bits (s : List Nat) : List Bit := s.map (· == 1)

/-- `LDS "1"`. -/
def in1 : State := loaded [0x31]

/-- `LDS "101"`. -/
def in101 : State := loaded [0x31, 0x30, 0x31]

/-- `LDS "1011"`. -/
def in1011 : State := loaded [0x31, 0x30, 0x31, 0x31]

/-- `LDS "10a1"`, state A of 95_test_vectors.md 2.7. -/
def in10a1 : State := loaded [0x31, 0x30, 0x61, 0x31]

/-- The longest input of the default instance, 64 ones. -/
def inFull : State := loaded (List.replicate 64 0x31)

/-- The same state in deterministic mode at index `k` (the `SETIDX` of R67). -/
def atIndex (k : Word) (s : State) : State := { s with det := true, ridx := k }

/-- State B of 95_test_vectors.md 2.7. -/
def stateB : State :=
  { atIndex 4 in1011 with
    ef := bits [0, 1, 1, 0, 0, 1, 1], efk := .ham, cf := bits [0, 1, 1, 0, 1, 1, 1], cfk := .ham, epos := 4,
    done := true }

/-- State C of 95_test_vectors.md 2.7. -/
def stateC : State :=
  { atIndex 6 in1011 with
    ef := bits [1, 0, 1, 1, 0, 0, 0, 0, 1, 1, 1, 0], efk := .crc,
    cf := bits [1, 0, 1, 1, 0, 0, 1, 0, 1, 1, 1, 0], cfk := .crc, epos := 6, done := true }

/-- The end state of program P2, with a waveform and a result. -/
def stateP2 : State := { stateB with wv := [.pos, .zero, .neg, .pos], dr := bits [0, 1, 1, 0, 0, 1, 1], drk := .frame }

/-- A state with one pending event. -/
def facing (e : HostEvent) (s : State) : State := { s with pending := [e] }

/-- What a field of the next state is. -/
def after {α : Type} (r : Result) (f : State → α) : Option α :=
  match r with
  | .next s => some (f s)
  | .fault _ => none
  | .refused _ => none

theorem of_after {α : Type} {r : Result} {f : State → α} {x : α} (h : after r f = some x) :
    ∃ t, r = .next t ∧ f t = x := by
  cases r with
  | next s => exact ⟨s, rfl, by simpa [after] using h⟩
  | fault e => cases e
  | refused e => cases h

/-! ### Well-formedness: one ill-formed term for each check -/

theorem test_wf_rsv : wordReservedClear 0x0110#16 = false ∧ wordWellFormed 0x0110#16 = false := by decide
theorem test_wf_group : wordGroupKnown 0x0060#16 = false ∧ wordWellFormed 0x0060#16 = false := by decide
theorem test_wf_ctl : wordSelectorKnown 0x0001#16 = false ∧ wordWellFormed 0x0001#16 = false := by decide
theorem test_wf_technique : wordSelectorKnown 0x0017#16 = false ∧ wordWellFormed 0x0017#16 = false := by decide
theorem test_wf_run_method : wordSelectorKnown 0x0022#16 = false ∧ wordWellFormed 0x0022#16 = false := by decide
theorem test_wf_encode_method : wordSelectorKnown 0x0032#16 = false ∧ wordWellFormed 0x0032#16 = false := by decide
theorem test_wf_decode_method : wordSelectorKnown 0x004A#16 = false ∧ wordWellFormed 0x004A#16 = false := by decide
theorem test_wf_inj : wordSelectorKnown 0x0051#16 = false ∧ wordWellFormed 0x0051#16 = false := by decide
theorem test_wf_nmax : ¬ ({ nmax := 0 } : Config).wf ∧ ¬ ({ nmax := 2049 } : Config).wf ∧
    ({ nmax := 1 } : Config).wf ∧ ({ nmax := 2048 } : Config).wf := by decide
theorem test_wf_memory : ¬ Memory.wf [(1, 0x31#8), (0, 0x30#8)] ∧ ¬ Memory.wf [(0, 0x00#8)] ∧
    Memory.wf State.reset.inp := by decide

/-! ### Decoding: `RSV`, `OPC`, `SEL` written out bit by bit from R56 and R61 -/

theorem test_decode_clr : decode (0b00000000#8 ++ 0b0000#4 ++ 0b0000#4) = .ok .clr := by decide
theorem test_decode_lencNrzl : decode (0b00000000#8 ++ 0b0001#4 ++ 0b0000#4) = .ok .lencNrzl := by decide
theorem test_decode_lencNrzi : decode (0b00000000#8 ++ 0b0001#4 ++ 0b0001#4) = .ok .lencNrzi := by decide
theorem test_decode_lencRz : decode (0b00000000#8 ++ 0b0001#4 ++ 0b0010#4) = .ok .lencRz := by decide
theorem test_decode_lencMan : decode (0b00000000#8 ++ 0b0001#4 ++ 0b0011#4) = .ok .lencMan := by decide
theorem test_decode_lencDman : decode (0b00000000#8 ++ 0b0001#4 ++ 0b0100#4) = .ok .lencDman := by decide
theorem test_decode_lencAmi : decode (0b00000000#8 ++ 0b0001#4 ++ 0b0101#4) = .ok .lencAmi := by decide
theorem test_decode_lencPst : decode (0b00000000#8 ++ 0b0001#4 ++ 0b0110#4) = .ok .lencPst := by decide
theorem test_decode_ecrunH : decode (0b00000000#8 ++ 0b0010#4 ++ 0b0000#4) = .ok .ecrunH := by decide
theorem test_decode_ecrunC : decode (0b00000000#8 ++ 0b0010#4 ++ 0b0001#4) = .ok .ecrunC := by decide
theorem test_decode_henc : decode (0b00000000#8 ++ 0b0011#4 ++ 0b0000#4) = .ok .henc := by decide
theorem test_decode_cenc : decode (0b00000000#8 ++ 0b0011#4 ++ 0b0001#4) = .ok .cenc := by decide
theorem test_decode_hcorC : decode (0b00000000#8 ++ 0b0100#4 ++ 0b0000#4) = .ok .hcorC := by decide
theorem test_decode_cdetC : decode (0b00000000#8 ++ 0b0100#4 ++ 0b0001#4) = .ok .cdetC := by decide
theorem test_decode_hcorE : decode (0b00000000#8 ++ 0b0100#4 ++ 0b1000#4) = .ok .hcorE := by decide
theorem test_decode_cdetE : decode (0b00000000#8 ++ 0b0100#4 ++ 0b1001#4) = .ok .cdetE := by decide
theorem test_decode_inj : decode (0b00000000#8 ++ 0b0101#4 ++ 0b0000#4) = .ok .inj := by decide
theorem test_decode_illegal : decode 0x0110#16 = .error .illegalCommand ∧ decode 0x00F0#16 = .error .illegalCommand ∧
    decode 0x000F#16 = .error .illegalCommand ∧ decode 0x0051#16 = .error .illegalCommand := by decide
theorem test_decode_unsupported : decode 0x001F#16 = .error (.unsupportedTechnique 15) ∧
    decode 0x0022#16 = .error (.unsupportedRunMethod 2) ∧ decode 0x003F#16 = .error (.unsupportedEncodeMethod 15) ∧
    decode 0x0042#16 = .error (.unsupportedDecodeMethod 0 2) ∧
    decode 0x004F#16 = .error (.unsupportedDecodeMethod 1 7) := by decide
theorem test_table_word : decodeTableWord 16 0x0049 = some .cdetE ∧ decodeTableWord 16 0x0149 = none := by decide

/-! ### One command on a small state -/

theorem test_nrzl : after (exec .lencNrzl in101) (·.wv) = some [.pos, .neg, .pos] := by decide
theorem test_nrzi : after (exec .lencNrzi in101) (·.wv) = some [.neg, .neg, .pos] := by decide
theorem test_rz : after (exec .lencRz in101) (·.wv) = some [.pos, .zero, .neg, .zero, .pos, .zero] := by decide
theorem test_man : after (exec .lencMan in101) (·.wv) = some [.pos, .neg, .neg, .pos, .pos, .neg] := by decide
theorem test_dman : after (exec .lencDman in101) (·.wv) = some [.neg, .pos, .pos, .neg, .pos, .neg] := by decide
theorem test_ami : after (exec .lencAmi in1011) (·.wv) = some [.pos, .zero, .neg, .pos] := by decide
theorem test_pst : after (exec .lencPst (loaded [0x31, 0x30, 0x30, 0x31])) (·.wv) =
    some [.zero, .pos, .neg, .zero] := by decide
theorem test_invalid_input : after (exec .lencNrzl { in10a1 with wv := [.pos] }) (fun t => (t.wv, statusWord t)) =
    some ([], 0x0011#16) := by decide
theorem test_henc : after (exec .henc stateB) (fun t => (t.ef, kindWord t, t.cf, t.epos)) =
    some (bits [0, 1, 1, 0, 0, 1, 1], 0x0001#16, [], 0) := by decide
theorem test_cenc : after (exec .cenc in1) (fun t => (t.ef, kindWord t)) =
    some (bits [1, 1, 0, 0, 0, 1, 0, 0, 1], 0x0002#16) := by decide
theorem test_hcor_c : after (exec .hcorC stateB) (fun t => (t.dr, kindWord t)) =
    some (bits [0, 1, 1, 0, 0, 1, 1], 0x0015#16) := by decide
theorem test_hcor_e : after (exec .hcorE stateB) (fun t => (t.dr, t.drk, t.cf)) =
    some (bits [0, 1, 1, 0, 0, 1, 1], .frame, stateB.cf) := by decide
theorem test_hcor_kind : after (exec .hcorC stateC) (fun t => (t.dr, statusWord t)) = some ([], 0x0015#16) := by decide
theorem test_cdet_c : after (exec .cdetC stateC) (fun t => (t.dr, kindWord t, statusWord t)) =
    some ([], 0x003A#16, 0x0010#16) := by decide +kernel
theorem test_cdet_e : after (exec .cdetE stateC) (fun t => (t.dr, t.drk)) = some (bits [1, 0, 1, 1], .data) := by decide +kernel
theorem test_inj : after (exec .inj (atIndex 0 stateB)) (fun t => (t.cf, t.epos, t.ef)) =
    some (bits [1, 1, 1, 0, 0, 1, 1], 0, stateB.ef) := by decide
theorem test_inj_range : after (exec .inj (atIndex 7 stateB)) (fun t => (t.cf, statusWord t, kindWord t)) =
    some ([], 0x0016#16, 0x0001#16) := by decide
theorem test_ecrun_h : after (exec .ecrunH (atIndex 4 in1011)) (fun t => (t.ef, t.cf, t.epos, t.dr, kindWord t)) =
    some (bits [0, 1, 1, 0, 0, 1, 1], bits [0, 1, 1, 0, 1, 1, 1], 4, bits [0, 1, 1, 0, 0, 1, 1], 0x0015#16) := by decide
theorem test_ecrun_h_range : after (exec .ecrunH (atIndex 7 stateB)) (fun t => (t.ef, t.cf, statusWord t)) =
    some ([], [], 0x0016#16) := by decide
theorem test_ecrun_c : after (exec .ecrunC (atIndex 11 in1011)) (fun t => (t.ef, t.cf, t.epos, t.drk)) =
    some (bits [1, 0, 1, 1, 0, 0, 0, 0, 1, 1, 1, 0], bits [1, 0, 1, 1, 0, 0, 0, 0, 1, 1, 1, 1], 11, .detfail) := by decide +kernel
theorem test_clr : after (exec .clr stateP2) (fun t => (t.inp, statusWord t, ctrlWord t, t.ridx)) =
    some ([], 0x0000#16, 0x0001#16, 0x0004#16) := by decide

/-! ### Words that are no command, and the host port -/

theorem test_error_order : after (execWord 0x0017#16 in10a1) statusWord = some 0x0011#16 ∧
    after (execWord 0x0017#16 stateB) statusWord = some 0x0012#16 ∧
    after (execWord 0x0042#16 State.reset) statusWord = some 0x0011#16 ∧
    after (execWord 0x004F#16 stateB) statusWord = some 0x0013#16 ∧
    after (execWord 0x0100#16 in10a1) statusWord = some 0x0014#16 := by decide
theorem test_two_flips : hamCorrect (bits [1, 0, 1, 0, 0, 1, 1]) ≠ .ok (bits [0, 1, 1, 0, 0, 1, 1]) ∧
    crcDetect (bits [0, 0, 1, 1, 0, 0, 1, 1, 1, 1, 1, 1]) = .ok (.data (bits [0, 0, 1, 1])) := by decide +kernel
theorem test_read_window : hostRead 0x2003#16 stateP2 = .okv 0x0001#16 ∧ hostRead 0x2002#16 stateP2 = .okv 0x0003#16 ∧
    hostRead 0x2004#16 stateP2 = .err ∧ hostRead 0x0000#16 stateP2 = .err := by decide
theorem test_write_refused : hostStore 0x0002#16 2 State.reset = none ∧ hostStore 0x0004#16 65 State.reset = none ∧
    hostStore 0x1000#16 0x0100 State.reset = none ∧ hostStore 0x1040#16 0x30 State.reset = none := by decide
theorem test_write_cell : (hostStore 0x103F#16 0x00FF State.reset).map (fun t => (t.inp, hostRead 0x103F#16 t)) =
    some ([(63, 0xFF#8)], .okv 0x00FF#16) := by decide
theorem test_step_runs_command : after (step (State.withFetchWord (atIndex 4 in1011) 16 0x0020))
    (fun t => (statusWord t, t.pending, t.answers)) = some (0x0010#16, [], [.ok]) := by decide
theorem test_step_reads : after (step (facing (.read 0x000A#16) stateP2)) (·.answers) = some [.okv 0x0015#16] := by decide
theorem test_step_reset : after (step (facing .rst stateP2)) (fun t => decide (t = State.reset)) = some true := by decide
theorem test_script_lds : (ScriptLine.lds [0x31#8, 0x61#8]).expand State.reset =
    [.write 0x1000#16 0x0031#16, .write 0x1001#16 0x0061#16, .write 0x0004#16 0x0002#16] := by decide
theorem test_script_lines : (issueLine (.mnemonic .lencMan) State.reset).pending = [.write 0x0000#16 0x0013#16] ∧
    (ScriptLine.setidx 4).expand State.reset = [.write 0x0002#16 0x0001#16, .write 0x0003#16 0x0004#16] ∧
    (ScriptLine.rdbuf .wv).expand stateP2 =
      [.read 0x0005#16, .read 0x2000#16, .read 0x2001#16, .read 0x2002#16, .read 0x2003#16] := by decide

/-! ### Witnesses of the statements' hypotheses -/

/-- The invariants of R31 in the states used below. -/
theorem inv_in1011 : in1011.Inv where
  config := by decide
  memory := by decide
  cells := by decide
  efEmpty := by decide
  cfEmpty := by decide
  efHam := fun h => by cases h
  efCrc := fun h => by cases h
  cfFlip := fun h => absurd rfl h
  eposEmpty := fun _ => rfl
  drEmpty := by decide
  drFull := by decide
  ilenBound := by decide
  wlenBound := by decide
  eflenBound := by decide
  cflenBound := by decide
  drlenBound := by decide

theorem inv_stateP2 : stateP2.Inv where
  config := by decide
  memory := by decide
  cells := by decide
  efEmpty := by decide
  cfEmpty := by decide
  efHam := fun _ => ⟨bits [1, 0, 1, 1], by decide, by decide, by decide⟩
  efCrc := fun h => by cases h
  cfFlip := fun _ => by decide
  eposEmpty := fun h => by cases h
  drEmpty := by decide
  drFull := by decide
  ilenBound := by decide
  wlenBound := by decide
  eflenBound := by decide
  cflenBound := by decide
  drlenBound := by decide

theorem inv_stateC : stateC.Inv where
  config := by decide
  memory := by decide
  cells := by decide
  efEmpty := by decide
  cfEmpty := by decide
  efHam := fun h => by cases h
  efCrc := fun _ => ⟨bits [1, 0, 1, 1], by decide, by decide, by decide +kernel⟩
  cfFlip := fun _ => by decide
  eposEmpty := fun h => by cases h
  drEmpty := by decide
  drFull := by decide
  ilenBound := by decide
  wlenBound := by decide
  eflenBound := by decide
  cflenBound := by decide
  drlenBound := by decide

/-- The events still pending are outside the block: they touch no invariant. -/
theorem inv_facing (e : HostEvent) {s : State} (h : s.Inv) : (facing e s).Inv := { h with }

theorem witness_DecodeAndEncodeAgree : Instr.clr.wellFormed = true ∧ Instr.inj.wellFormed = true := by decide
theorem witness_EveryWordIsDispatchedByItsFields : ((0x4F : Nat) = (0x024F#16 : Word).toNat % 256) ∧ (0x024F#16 : Word).toNat / 256 = 2 ∧
    (0x024F#16 : Word).toNat / 16 % 16 = 4 ∧ (0x024F#16 : Word).toNat % 16 = 15 := by decide
theorem witness_IllegalWordsWriteOnlyStatus : (0x0100#16 : Word).toNat ≥ 0x0100 ∧ (0xFFFF#16 : Word).toNat ≥ 0x0100 ∧
    (0x0060#16 : Word).toNat / 16 % 16 ≥ 6 ∧ (0x00FF#16 : Word).toNat / 16 % 16 ≥ 6 ∧
    (0x0001 ≤ (0x000F#16 : Word).toNat ∧ (0x000F#16 : Word).toNat ≤ 0x000F) ∧
    (0x0051 ≤ (0x005F#16 : Word).toNat ∧ (0x005F#16 : Word).toNat ≤ 0x005F) := by decide
theorem witness_UnsupportedTechniqueWords : 0x0017 ≤ (0x0017#16 : Word).toNat ∧ (0x001F#16 : Word).toNat ≤ 0x001F ∧
    ValidInput in1 ∧ ValidInput inFull ∧ ¬ ValidInput State.reset ∧ ¬ ValidInput in10a1 := by decide
theorem witness_UnsupportedMethodWords : ValidInput in1 ∧ ¬ ValidInput in10a1 ∧ stateB.cfk ≠ .none ∧ in1.cfk = .none ∧ stateB.efk ≠ .none ∧
    in1.efk = .none ∧ (0x0022 ≤ (0x002F#16 : Word).toNat ∧ (0x002F#16 : Word).toNat ≤ 0x002F) ∧
    (0x0032 ≤ (0x0032#16 : Word).toNat ∧ (0x0032#16 : Word).toNat ≤ 0x003F) ∧
    (0x0042 ≤ (0x0047#16 : Word).toNat ∧ (0x0047#16 : Word).toNat ≤ 0x0047) ∧
    (0x004A ≤ (0x004A#16 : Word).toNat ∧ (0x004A#16 : Word).toNat ≤ 0x004F) := by decide
theorem witness_StepRunsTheDecodedCommand : Instr.henc.wellFormed = true ∧
    (State.withFetchWord in1011 16 0x0030).pending = [.write 0x0000#16 0x0030#16] ∧ decode 0x0030#16 = .ok .henc ∧
    ∃ t, exec .henc { State.withFetchWord in1011 16 0x0030 with pending := [] } = .next t := ⟨rfl, rfl, rfl, _, rfl⟩
theorem witness_EveryTransactionIsAnswered : State.reset.pending = [] ∧ (facing .rst stateB).pending = [.rst] ∧
    (facing (.read 0#16) stateB).pending = [.read 0#16] := by decide
theorem witness_ErrAnswersChangeNothing : (facing (.read 0#16) stateB).pending = [.read 0#16] ∧
    ∃ t, step (facing (.read 0#16) stateB) = .next t ∧ t.answers = (facing (.read 0#16) stateB).answers ++ [.err] := ⟨rfl, _, rfl, rfl⟩
theorem witness_HostReadFollowsTheMap : stateP2.Inv ∧ (0x1000#16 : Word).toNat = 0x1000 + 0 ∧ (0x103F#16 : Word).toNat = 0x1000 + 63 ∧
    63 < stateP2.cfg.nmax ∧ (0x2003#16 : Word).toNat = 0x2000 + 3 ∧ stateP2.wv[3]? = some .pos ∧
    (0x3006#16 : Word).toNat = 0x3000 + 6 ∧ stateP2.ef[6]? = some true ∧ (0x4006#16 : Word).toNat = 0x4000 + 6 ∧
    stateP2.cf[6]? = some true ∧ (0x5000#16 : Word).toNat = 0x5000 + 0 ∧ stateP2.dr[0]? = some false ∧
    (facing (.read 0x5000#16) stateP2).pending = [.read 0x5000#16] := ⟨inv_stateP2, by decide⟩
theorem witness_UnmappedAddressesAreRefused : stateP2.Inv ∧ 0x000B ≤ (0x000B#16 : Word).toNat ∧ (0x0FFF#16 : Word).toNat ≤ 0x0FFF ∧
    0x6000 ≤ (0xFFFF#16 : Word).toNat ∧ 0x1000 + stateP2.cfg.nmax = (0x1040#16 : Word).toNat ∧
    0x2000 + stateP2.wv.length = (0x2004#16 : Word).toNat ∧ 0x3000 + stateP2.ef.length = (0x3007#16 : Word).toNat ∧
    0x4000 + stateP2.cf.length = (0x4007#16 : Word).toNat ∧ 0x5000 + stateP2.dr.length = (0x5007#16 : Word).toNat ∧
    (0x5FFF#16 : Word).toNat ≤ 0x5FFF := ⟨inv_stateP2, by decide⟩
theorem witness_HostWriteFollowsTheMap : (facing (.write 0x1001#16 0x31) in1011).Inv ∧
    (facing (.write 0x1001#16 0x31) in1011).pending = [.write 0x1001#16 0x31] ∧ (0x1001#16 : Word).toNat = 0x1000 + 1 ∧
    (0x103F#16 : Word).toNat = 0x1000 + 63 ∧ 63 < in1011.cfg.nmax ∧ (0x00FF#16 : Word).toNat ≤ 0xFF ∧
    (0x0001#16 : Word).toNat ≤ 1 ∧ 1 < (0x0002#16 : Word).toNat ∧ (0x0040#16 : Word).toNat ≤ in1011.cfg.nmax ∧
    in1011.cfg.nmax < (0x0041#16 : Word).toNat ∧ 0xFF < (0x0100#16 : Word).toNat ∧
    0x0005 ≤ (0x0FFF#16 : Word).toNat ∧ (0x0FFF#16 : Word).toNat < 0x1000 ∧
    0x1000 + in1011.cfg.nmax ≤ (0x1040#16 : Word).toNat := ⟨inv_facing _ inv_in1011, by decide⟩
theorem witness_EveryPieceOfStateCanBeRead : stateP2.Inv ∧ ({ stateP2 with draws := 7 } : State).Inv ∧
    (∀ a : Word, hostRead a stateP2 = hostRead a { stateP2 with draws := 7 }) := ⟨inv_stateP2, { inv_stateP2 with }, fun _ => rfl⟩
theorem witness_LevelCodes : stateP2.Inv ∧ (0x2000#16 : Word).toNat = 0x2000 + 0 ∧ stateP2.wv[0]? = some .pos ∧
    (0x2001#16 : Word).toNat = 0x2000 + 1 ∧ stateP2.wv[1]? = some .zero ∧ (0x2002#16 : Word).toNat = 0x2000 + 2 ∧
    stateP2.wv[2]? = some .neg := ⟨inv_stateP2, by decide⟩
theorem witness_ResetEventIsConstant : (facing .rst stateP2).pending = [.rst] := rfl
theorem witness_ReadsAfterReset : ({ nmax := 1 } : Config).wf ∧ ({ nmax := 2048 } : Config).wf ∧ 1 ≤ (0x0001#16 : Word).toNat ∧
    (0x000A#16 : Word).toNat ≤ 0x000A ∧ (0x17FF#16 : Word).toNat < 0x1000 + 2048 ∧ 0x2000 ≤ (0x2000#16 : Word).toNat ∧
    (0x5FFF#16 : Word).toNat ≤ 0x5FFF := by decide
theorem witness_EveryStepKeepsTheInvariants : (facing (.write 0#16 0x0020) stateP2).Inv ∧
    ∃ t, step (facing (.write 0#16 0x0020) stateP2) = .next t ∧ t.dr = stateP2.ef := ⟨inv_facing _ inv_stateP2, _, rfl, by decide⟩
theorem witness_EachBufferHasItsOwnWriters : (∃ t, exec .inj stateB = .next t ∧ t.errc = .none) ∧ Instr.inj ∉ [Instr.clr, .henc, .cenc, .ecrunH, .ecrunC] ∧
    Instr.hcorC ∉ [Instr.clr, .henc, .cenc, .ecrunH, .ecrunC, .inj] ∧ Instr.lencPst ∈ lencCommands ∧
    Instr.henc ∉ Instr.clr :: lencCommands := ⟨⟨_, rfl, rfl⟩, by decide, by decide, by decide, by decide⟩
theorem witness_InputIsValidatedWhole : ValidInput in1 ∧ ValidInput inFull ∧ ¬ ValidInput in10a1 ∧ ¬ ValidInput State.reset ∧
    Instr.ecrunC ∈ inputCommands ∧ Instr.lencNrzl ∈ inputCommands := by decide
theorem witness_LencNrzlMeaning : ValidInput in101 ∧ 0 < in101.ilen ∧ 2 < in101.ilen ∧ ¬ ValidInput in10a1 := by decide
theorem witness_LencNrziMeaning : ValidInput in101 ∧ 0 < in101.ilen ∧ 2 < in101.ilen ∧ ¬ ValidInput in10a1 := by decide
theorem witness_LencRzMeaning : ValidInput in101 ∧ 0 < in101.ilen ∧ 2 < in101.ilen ∧ ¬ ValidInput in10a1 := by decide
theorem witness_LencManMeaning : ValidInput in101 ∧ 0 < in101.ilen ∧ 2 < in101.ilen ∧ ¬ ValidInput in10a1 := by decide
theorem witness_LencDmanMeaning : ValidInput in101 ∧ 0 < in101.ilen ∧ 2 < in101.ilen ∧ ¬ ValidInput in10a1 := by decide
theorem witness_LencAmiMeaning : ValidInput in101 ∧ 0 < in101.ilen ∧ 2 < in101.ilen ∧ ¬ ValidInput in10a1 := by decide
theorem witness_LencPstMeaning : ValidInput in101 ∧ 0 < in101.ilen ∧ 2 < in101.ilen ∧ ¬ ValidInput in10a1 := by decide
theorem witness_CommandsReadOnlyTheirSources : in1011 ≠ stateB ∧ in1011.ilen = stateB.ilen ∧
    (∀ k < in1011.ilen, in1011.inp.read k = stateB.inp.read k) ∧ (∃ t, execLenc 0 in1011 = .next t) ∧
    (∃ t, execLenc 0 stateB = .next t) ∧ stateB ≠ stateP2 ∧ stateB.ef = stateP2.ef ∧ stateB.efk = stateP2.efk ∧
    stateB.cf = stateP2.cf ∧ stateB.cfk = stateP2.cfk ∧ stateB.det = stateP2.det ∧ stateB.ridx = stateP2.ridx ∧
    stateB.draws = stateP2.draws ∧ (∃ t, exec .inj stateB = .next t) ∧ (∃ t, exec .inj stateP2 = .next t) := 
  ⟨by decide, rfl, fun _ _ => rfl, ⟨_, rfl⟩, ⟨_, rfl⟩, by decide, rfl, rfl, rfl, rfl, rfl, rfl, rfl, ⟨_, rfl⟩, ⟨_, rfl⟩⟩
theorem witness_EncoderProperties : ValidInput inFull ∧ inFull.ilen = inFull.cfg.nmax ∧
    ((encAmi (bits [1, 0, 1])).filter (fun x => x != .zero))[1]? = some .neg ∧
    ((encPst (bits [0, 1])).filter (fun x => x != .zero))[0]? = some .pos ∧ ∃ t, execLenc 15 in1 = .next t := ⟨by decide, rfl, by decide, by decide, _, rfl⟩
theorem witness_LencFrame : stateP2.Inv ∧ Instr.lencNrzl ∈ lencCommands ∧ ∃ t, exec .lencNrzl stateP2 = .next t ∧ t.wv ≠ stateP2.wv := ⟨inv_stateP2, by decide, _, rfl, by decide⟩
theorem witness_RedundancyCountIsLeast : rh 1 = 2 ∧ rh 2 = 3 ∧ rh 4 = 3 ∧ rh 5 = 4 ∧ rh 11 = 4 ∧ rh 12 = 5 ∧ rh 26 = 5 ∧ rh 27 = 6 ∧ rh 57 = 6 ∧
    rh 58 = 7 ∧ rh 64 = 7 ∧ rh 120 = 7 ∧ rh 121 = 8 ∧ rh 247 = 8 ∧ rh 248 = 9 ∧ rh 502 = 9 := by decide
theorem witness_RedundancyCountIsLeast_long : rh 503 = 10 ∧ rh 1013 = 10 ∧ rh 1014 = 11 ∧ rh 2036 = 11 ∧ rh 2037 = 12 ∧ rh 2048 = 12 := by decide
theorem witness_HammingFrameLayout : 1 ≤ (bits [1]).length ∧ (bits [1, 1, 1]).length = (bits [1]).length + rh (bits [1]).length ∧
    hamData (bits [1, 1, 1]) = bits [1] ∧ parityCheck 0 (bits [1, 1, 1]) = false ∧
    parityCheck 1 (bits [1, 1, 1]) = false ∧ parityCheck 2 (bits [1, 1, 1]) = false := by decide
theorem witness_ChecksAndSyndromeOfAnyFrame : 1 ≤ (bits [1]).length ∧ hamSyndrome (bits [1]) = 1 ∧ isSlot 1 = true ∧ isSlot 4 = true ∧ isSlot 0 = false ∧
    covers 2 4 = true ∧ covers 2 8 = false := by decide
theorem witness_HammingCorrectsEverySingleFlip : 1 ≤ (bits [1]).length ∧ 0 < (hamEncode (bits [1])).length ∧ 2 < (hamEncode (bits [1])).length ∧ stateP2.Inv ∧
    (∃ t, exec .hcorC stateP2 = .next t ∧ t.errc = .none) ∧ ∃ t, exec .ecrunH stateP2 = .next t ∧ t.errc = .none := 
  ⟨by decide, by decide, by decide, inv_stateP2, ⟨_, rfl, by decide⟩, _, rfl, by decide⟩
theorem witness_HencMeaning : ValidInput in1 ∧ ValidInput inFull ∧ inFull.ilen ≤ inFull.cfg.nmax ∧ ¬ ValidInput in10a1 := by decide
theorem witness_HcorCMeaning : stateP2.Inv ∧ stateP2.cfk = .ham ∧ in1.cfk = .none ∧ stateC.cfk = .crc := ⟨inv_stateP2, by decide⟩
theorem witness_HcorEMeaning : stateP2.Inv ∧ stateP2.efk = .ham ∧ in1.efk = .none ∧ stateC.efk = .crc := ⟨inv_stateP2, by decide⟩
theorem witness_DecodersFrame : stateC.Inv ∧ Instr.cdetE ∈ [Instr.hcorC, .cdetC, .hcorE, .cdetE] ∧
    ∃ t, exec .cdetE stateC = .next t ∧ t.dr = bits [1, 0, 1, 1] := ⟨inv_stateC, by decide, of_after (by decide +kernel)⟩
theorem witness_ChecksumIsLinear : (bits [1, 0]).length = (bits [1, 1]).length := by decide
theorem witness_CrcFrameLayout : (0 : Nat) < 8 ∧ 7 < 8 := by decide
theorem witness_DetectorAcceptsExactlyCrcFrames : 1 ≤ (bits [1]).length ∧ (crcEncode (bits [1])).length = 9 ∧
    crcDetect (crcEncode (bits [1])) = .ok (.data (bits [1])) ∧ (crcEncode []).length ≤ 8 := by decide
theorem witness_CrcDetectsEverySingleFlip : 1 ≤ (bits [1]).length ∧ 0 < (crcEncode (bits [1])).length ∧ 8 < (crcEncode (bits [1])).length ∧ stateC.Inv ∧
    (∃ t, exec .cdetC stateC = .next t ∧ t.errc = .none) ∧ ∃ t, exec .ecrunC stateC = .next t ∧ t.errc = .none := 
  ⟨by decide, by decide, by decide, inv_stateC, of_after (by decide +kernel), of_after (by decide +kernel)⟩
theorem witness_CencMeaning : ValidInput in1 ∧ ValidInput inFull ∧ inFull.ilen ≤ inFull.cfg.nmax ∧ ¬ ValidInput in10a1 := by decide
theorem witness_CdetCMeaning : stateC.Inv ∧ stateC.cfk = .crc ∧ in1.cfk = .none ∧ stateB.cfk = .ham := ⟨inv_stateC, by decide⟩
theorem witness_CdetEMeaning : stateC.Inv ∧ stateC.efk = .crc ∧ in1.efk = .none ∧ stateB.efk = .ham := ⟨inv_stateC, by decide⟩
theorem witness_EncodersAndRunsFrame : stateP2.Inv ∧ Instr.henc ∈ [Instr.henc, .cenc, .ecrunH, .ecrunC] ∧
    (∃ t, exec .henc stateP2 = .next t ∧ t.cf ≠ stateP2.cf) ∧ ∃ t, exec .ecrunC stateP2 = .next t ∧ t.ef = stateC.ef := 
  ⟨inv_stateP2, by decide, ⟨_, rfl, by decide⟩, of_after (by decide +kernel)⟩
theorem witness_FlipChangesOneBit : 0 < (bits [1, 0]).length ∧ 1 < (bits [1, 0]).length := by decide
theorem witness_InjMeaning : stateB.efk ≠ .none ∧ (atIndex 6 stateB).det = true ∧ (atIndex 6 stateB).ridx.toNat < stateB.ef.length ∧
    ({ stateB with det := false } : State).det = false ∧ 1 ≤ stateB.ef.length ∧ in1.efk = .none := by decide
theorem witness_IndexRangeIsReported : (atIndex 7 stateB).det = true ∧ stateB.ef.length ≤ (atIndex 7 stateB).ridx.toNat ∧ stateB.efk ≠ .none ∧
    ValidInput (atIndex 7 in1011) ∧ in1011.ilen + rh in1011.ilen ≤ (atIndex 7 in1011).ridx.toNat ∧
    in1011.ilen + 8 ≤ (atIndex 12 in1011).ridx.toNat ∧ in1011.det = false ∧ (atIndex 6 stateB).ridx.toNat < 7 := by decide
theorem witness_OneDrawPerInjection : (∃ t, exec .inj { stateB with det := false } = .next t) ∧ (∃ t, exec .ecrunH in1011 = .next t) ∧
    ∃ t, exec .inj stateB = .next t := 
  ⟨(exec_next _ _).imp fun _ h => h.1, (exec_next _ _).imp fun _ h => h.1, (exec_next _ _).imp fun _ h => h.1⟩
theorem witness_InjFrame : stateP2.Inv ∧ (∃ t, exec .inj stateP2 = .next t ∧ t.dr ≠ stateP2.dr) ∧ stateP2.det = true ∧
    ∃ t u, exec .inj stateP2 = .next t ∧ exec .inj t = .next u := ⟨inv_stateP2, ⟨_, rfl, by decide⟩, rfl, _, _, rfl, rfl⟩
theorem witness_EcrunHMeaning : ValidInput (atIndex 6 in1011) ∧ (atIndex 6 in1011).det = true ∧
    (atIndex 6 in1011).ridx.toNat < in1011.ilen + rh in1011.ilen ∧ ValidInput in1 ∧ in1.det = false ∧ ¬ ValidInput in10a1 := by decide
theorem witness_EcrunCMeaning : ValidInput (atIndex 11 in1011) ∧ (atIndex 11 in1011).det = true ∧
    (atIndex 11 in1011).ridx.toNat < in1011.ilen + 8 ∧ ValidInput in1 ∧ in1.det = false ∧ ¬ ValidInput in10a1 := by decide
theorem witness_CompositeRunIsTheThreeCommands : (∃ t, exec .ecrunH stateB = .next t ∧ t.errc = .none) ∧
    ∃ t, exec .ecrunC stateB = .next t ∧ t.errc = .none := ⟨of_after (by decide +kernel), of_after (by decide +kernel)⟩
theorem witness_ClrMeaning : (∃ t, exec .clr stateP2 = .next t ∧ t.done = false) ∧ ∃ t, exec .henc stateP2 = .next t ∧ t.done = true := ⟨⟨_, rfl, rfl⟩, _, rfl, rfl⟩
theorem witness_WaveformAndRunAreIndependent : Instr.lencAmi ∈ lencCommands ∧ Instr.ecrunH ∈ [Instr.ecrunH, .ecrunC] ∧
    ∃ a b c d, exec .lencAmi stateB = .next a ∧ exec .ecrunH a = .next b ∧ exec .ecrunH stateB = .next c ∧
      exec .lencAmi c = .next d := ⟨by decide, by decide, _, _, _, _, rfl, rfl, rfl, rfl⟩
theorem witness_FailuresOnlyEmptyTheDestination : (∃ t, exec .lencRz in10a1 = .next t ∧ t.errc ≠ .none) ∧ (∃ t, exec .ecrunC in10a1 = .next t ∧ t.errc ≠ .none) ∧
    (∃ t, exec .inj (atIndex 7 stateB) = .next t ∧ t.errc ≠ .none) ∧ ∃ t, exec .cdetE stateB = .next t ∧ t.errc ≠ .none := 
  ⟨⟨_, rfl, by decide⟩, ⟨_, rfl, by decide⟩, ⟨_, rfl, by decide⟩, _, rfl, by decide⟩
theorem witness_FirstFailingCheckIsReported : stateP2.Inv ∧ (∃ t, exec .inj stateP2 = .next t) ∧ Instr.lencRz ∈ lencCommands ++ [.henc, .cenc] ∧
    stateP2.ilen + rh stateP2.ilen = 7 ∧ stateP2.ef.length = 7 := ⟨inv_stateP2, ⟨_, rfl⟩, by decide, by decide, by decide⟩
theorem witness_SyndromeRangeCannotOccur : stateP2.Inv ∧ stateP2.errc ≠ .syndromeRange ∧ (∃ t, step (facing (.write 0#16 0x0040) stateP2) = .next t) ∧
    (bits [0, 1, 0, 1, 0]).length < hamSyndrome (bits [0, 1, 0, 1, 0]) := ⟨inv_stateP2, by decide, ⟨_, rfl⟩, by decide⟩

end Sys2Proof.Tests
end

section
/-! PROOF. The statements of 10_state.md: the invariants of R31 (O18, O19), the writers of each piece of state (O20) and the
layouts of the level codes, `STATUS` and `KIND` (O14, O15). -/

namespace Sys2Proof.Machine

/-! ### The length of what the encoders and decoders make -/

@[simp] theorem length_hamEncode (d : List Bit) : (hamEncode d).length = d.length + rh d.length := by
  simp [hamEncode, length_foldl_fillSlot]

@[simp] theorem length_crcEncode (d : List Bit) : (crcEncode d).length = d.length + 8 := by
  simp [crcEncode]

/-- `RH(L)` satisfies its inequality, and every `m` that does is at least as large (R81). -/
theorem rh_spec (l : Nat) : l + rh l + 1 ≤ 2 ^ rh l ∧ ∀ m, l + m + 1 ≤ 2 ^ m → rh l ≤ m := by
  obtain ⟨hle, hleast⟩ := rhFrom_least l (l + 1) 0 (rh_fuel l) (by simp)
  refine ⟨hle, fun m hm => ?_⟩
  by_contra hlt
  have := hleast m (Nat.lt_of_not_le hlt)
  omega

theorem rh_mono {l l' : Nat} (h : l ≤ l') : rh l ≤ rh l' :=
  (rh_spec l).2 _ (by have := (rh_spec l').1; omega)

/-- A frame built from data that fits `IN` fits its buffer (R6). -/
theorem length_encodeFrame_le (m : Method) {d : List Bit} {n : Nat} (h : d.length ≤ n) :
    (encodeFrame m d).length ≤ fmax n := by
  have := rh_mono h
  cases m <;> simp only [encodeFrame, length_hamEncode, length_crcEncode, fmax] <;> omega

theorem length_encodeFrame_ge (m : Method) (d : List Bit) : d.length ≤ (encodeFrame m d).length := by
  cases m <;> simp [encodeFrame]

theorem length_of_hamCorrect {f r : List Bit} (h : hamCorrect f = .ok r) : r.length = f.length := by
  unfold hamCorrect at h
  split at h
  · cases h; rfl
  · split at h <;> cases h
    exact length_flipBit _ _

/-- The outcomes of `CrcDetect` (R96). -/
theorem crcDetect_cases (f : List Bit) :
    (f.length ≤ 8 ∧ crcDetect f = .error .invalidInput) ∨
    (8 < f.length ∧ crcDetect f = .ok (.data (f.take (f.length - 8)))) ∨
    (8 < f.length ∧ crcDetect f = .ok .detectionFailure) := by
  unfold crcDetect
  by_cases hl : f.length ≤ 8
  · exact .inl ⟨hl, if_pos hl⟩
  · rw [if_neg hl]
    split
    · exact .inr (.inl ⟨by omega, rfl⟩)
    · exact .inr (.inr ⟨by omega, rfl⟩)

@[simp] theorem length_encNrzl (b : List Bit) : (encNrzl b).length = b.length := by
  induction b with
  | nil => rfl
  | cons x b ih => simp [encNrzl, ih]

@[simp] theorem length_encNrziFrom (lv : Level) (b : List Bit) : (encNrziFrom lv b).length = b.length := by
  induction b generalizing lv with
  | nil => rfl
  | cons x b ih => simp [encNrziFrom, ih]

@[simp] theorem length_encRz (b : List Bit) : (encRz b).length = 2 * b.length := by
  induction b with
  | nil => rfl
  | cons x b ih => simp [encRz, ih]; omega

@[simp] theorem length_encMan (b : List Bit) : (encMan b).length = 2 * b.length := by
  induction b with
  | nil => rfl
  | cons x b ih => cases x <;> simp [encMan, ih] <;> omega

@[simp] theorem length_encDmanFrom (lv : Level) (b : List Bit) : (encDmanFrom lv b).length = 2 * b.length := by
  induction b generalizing lv with
  | nil => rfl
  | cons x b ih => cases x <;> simp [encDmanFrom, ih] <;> omega

@[simp] theorem length_encAmiFrom (nx : Level) (b : List Bit) : (encAmiFrom nx b).length = b.length := by
  induction b generalizing nx with
  | nil => rfl
  | cons x b ih => cases x <;> simp [encAmiFrom, ih]

@[simp] theorem length_encPstFrom (nx : Level) (b : List Bit) : (encPstFrom nx b).length = b.length := by
  induction b generalizing nx with
  | nil => rfl
  | cons x b ih => cases x <;> simp [encPstFrom, ih]

/-- No technique emits more than two samples a bit (R77). -/
theorem length_lineEncode_le {tech : BitVec 4} {b : List Bit} {w : List Level} (h : lineEncode tech b = some w) :
    w.length ≤ 2 * b.length := by
  unfold lineEncode at h
  split at h <;> cases h <;> simp [encNrzi, encDman, encAmi, encPst] <;> omega

/-! ### The updates keep the invariants -/

/-- The invariants speak neither of `STATUS`, `CTRL` and `RIDX` nor of what stands outside the block. -/
theorem State.Inv.outside {s : State} (h : s.Inv) (errc : ErrCode) (done det : Bool) (ridx : Word) (draws : Nat)
    (pending : List HostEvent) (answers : List Response) :
    State.Inv { s with errc := errc, done := done, det := det, ridx := ridx, draws := draws, pending := pending,
                       answers := answers } :=
  { h with }

theorem State.Inv.setStatus {s : State} (h : s.Inv) (e : ErrCode) : (setStatus e s).Inv := h.outside ..

theorem State.Inv.countDraw {s : State} (h : s.Inv) : (countDraw s).Inv := by
  unfold Machine.countDraw
  split
  · exact h
  · exact h.outside ..

/-- Every reset state meets the invariants (R35). -/
theorem inv_resetOf {c : Config} (h : c.wf) : (State.resetOf c).Inv where
  config := h
  memory := ⟨List.Pairwise.nil, by simp [State.resetOf]⟩
  cells := by simp [State.resetOf]
  efEmpty := by simp [State.resetOf]
  cfEmpty := by simp [State.resetOf]
  efHam := by simp [State.resetOf]
  efCrc := by simp [State.resetOf]
  cfFlip := by simp [State.resetOf]
  eposEmpty := by simp [State.resetOf]
  drEmpty := by simp [State.resetOf]
  drFull := by simp [State.resetOf]
  ilenBound := Nat.zero_le _
  wlenBound := Nat.zero_le _
  eflenBound := Nat.zero_le _
  cflenBound := Nat.zero_le _
  drlenBound := Nat.zero_le _

theorem State.Inv.writeWv {s : State} (h : s.Inv) {w : List Level} (hw : w.length ≤ wmax s.cfg.nmax) :
    (writeWv w s).Inv :=
  { h with wlenBound := hw }

/-- A result is written with the tag that tells whether it is empty (R20). -/
theorem State.Inv.writeDr {s : State} (h : s.Inv) {k : ResultKind} {f : List Bit}
    (hempty : k = .none ∨ k = .detfail → f.length = 0) (hfull : k = .frame ∨ k = .data → 1 ≤ f.length)
    (hlen : f.length ≤ fmax s.cfg.nmax) : (writeDr k f s).Inv :=
  { h with drEmpty := hempty, drFull := hfull, drlenBound := hlen }

theorem State.Inv.emptyDr {s : State} (h : s.Inv) : (Machine.writeDr .none [] s).Inv :=
  h.writeDr (by simp) (by simp) (Nat.zero_le _)

/-- `CF`, its tag and `EPOS` are emptied together (R62). -/
theorem State.Inv.emptyCf {s : State} (h : s.Inv) : (writeCf .none [] 0 s).Inv :=
  { h with
    cfEmpty := by simp
    cfFlip := by simp
    eposEmpty := by simp
    cflenBound := Nat.zero_le _ }

/-- A new content of `EF`, with the copy of the old one discarded (R62). -/
theorem State.Inv.writeEf {s : State} (h : s.Inv) {k : FrameKind} {f : List Bit} (hempty : k = .none ↔ f.length = 0)
    (hham : k = .ham → ∃ d : List Bit, 1 ≤ d.length ∧ d.length ≤ s.cfg.nmax ∧ f = hamEncode d)
    (hcrc : k = .crc → ∃ d : List Bit, 1 ≤ d.length ∧ d.length ≤ s.cfg.nmax ∧ f = crcEncode d)
    (hlen : f.length ≤ fmax s.cfg.nmax) : (writeCf .none [] 0 (writeEf k f s)).Inv :=
  { h with
    efEmpty := hempty
    efHam := hham
    efCrc := hcrc
    cfEmpty := by simp
    cfFlip := by simp
    eposEmpty := by simp
    eflenBound := hlen
    cflenBound := Nat.zero_le _ }

theorem State.Inv.emptyEf {s : State} (h : s.Inv) : (writeCf .none [] 0 (Machine.writeEf .none [] s)).Inv :=
  h.writeEf (by simp) (by simp) (by simp) (Nat.zero_le _)

/-- A frame built by a method from data that fits `IN` (R90). -/
theorem State.Inv.writeFrame {s : State} (h : s.Inv) (m : Method) {d : List Bit} (h1 : 1 ≤ d.length)
    (hn : d.length ≤ s.cfg.nmax) : (writeCf .none [] 0 (Machine.writeEf m.kind (encodeFrame m d) s)).Inv := by
  have hlen := length_encodeFrame_le m hn
  have hpos : (encodeFrame m d).length ≠ 0 := by have := length_encodeFrame_ge m d; omega
  cases m with
  | ham => exact h.writeEf (iff_of_false (by decide) hpos) (fun _ => ⟨d, h1, hn, rfl⟩) nofun hlen
  | crc => exact h.writeEf (iff_of_false (by decide) hpos) nofun (fun _ => ⟨d, h1, hn, rfl⟩) hlen

/-- `EF` copied to `CF` with one bit flipped (R103). -/
theorem State.Inv.writeFlipped {s : State} (h : s.Inv) {p : Nat} (hp : p < s.ef.length) :
    (writeCf s.efk (flipBit s.ef p) p s).Inv :=
  { h with
    cfEmpty := by simpa using h.efEmpty
    cfFlip := fun _ => ⟨rfl, by simp, by simpa using hp, rfl⟩
    eposEmpty := fun hk => by
      have : s.ef.length = 0 := h.efEmpty.mp hk
      omega
    cflenBound := by simpa using h.eflenBound }

/-- What a decoder makes of a non-empty frame that fits may be written to `DR` (R20, R91). -/
theorem State.Inv.writeResult {s : State} (h : s.Inv) {m : Method} {f : List Bit} {r : DecodeResult}
    (hr : decodeFrame m f = .ok r) (h1 : 1 ≤ f.length) (hn : f.length ≤ fmax s.cfg.nmax) : (writeResult r s).Inv := by
  cases m with
  | ham =>
    simp only [decodeFrame] at hr
    split at hr
    · next g hg =>
      cases hr
      have := length_of_hamCorrect hg
      exact h.writeDr (by simp) (fun _ => by omega) (by omega)
    · cases hr
  | crc =>
    simp only [decodeFrame] at hr
    obtain ⟨-, hc⟩ | ⟨hl, hc⟩ | ⟨-, hc⟩ := crcDetect_cases f <;> rw [hc] at hr <;> cases hr
    · exact h.writeDr (by simp) (fun _ => by simp; omega) (by simp; omega)
    · exact h.writeDr (fun _ => rfl) (by simp) (Nat.zero_le _)

theorem State.Inv.writeIlen {s : State} (h : s.Inv) {n : Nat} (hn : n ≤ s.cfg.nmax) : (writeIlen n s).Inv :=
  { h with ilenBound := hn }

theorem State.Inv.writeCell {s : State} (h : s.Inv) {i : Nat} (hi : i < s.cfg.nmax) (v : Sym) :
    (writeCell i v s).Inv :=
  { h with
    memory := Memory.write_wf h.memory i v
    cells := Memory.write_below h.cells hi v }

/-- The error entry keeps the invariants: it empties buffers with their tags (R111). -/
theorem State.Inv.emptyDest {s : State} (h : s.Inv) (d : DestSet) : (emptyDest d s).Inv := by
  cases d with
  | lenc => exact h.writeWv (Nat.zero_le _)
  | ecenc => exact h.emptyEf.emptyDr
  | inj => exact h.emptyCf.emptyDr
  | ecdec => exact h.emptyDr
  | ecrun => exact h.emptyEf.emptyDr
  | nothing => exact h

/-- The error entry keeps the invariants (R111). -/
theorem State.Inv.raised {s : State} (h : s.Inv) (d : DestSet) (e : ErrCode) :
    (Machine.setStatus e (Machine.emptyDest d s)).Inv :=
  (h.emptyDest d).setStatus e

/-! ### The groups of commands keep the invariants -/

theorem sourceFrame_cases (src : BitVec 1) (s : State) :
    sourceFrame src s = (s.cf, s.cfk) ∨ sourceFrame src s = (s.ef, s.efk) := by
  unfold sourceFrame
  split
  · exact .inl rfl
  · exact .inr rfl

/-- The frame a decoder reads fits its buffer, and is not empty where it has a tag. -/
theorem State.Inv.sourceFrame_fits {s : State} (h : s.Inv) {src : BitVec 1} (hk : (sourceFrame src s).2 ≠ .none) :
    1 ≤ (sourceFrame src s).1.length ∧ (sourceFrame src s).1.length ≤ fmax s.cfg.nmax := by
  obtain e | e := sourceFrame_cases src s <;> rw [e] at hk ⊢
  · exact ⟨Nat.pos_of_ne_zero (mt h.cfEmpty.mpr hk), h.cflenBound⟩
  · exact ⟨Nat.pos_of_ne_zero (mt h.efEmpty.mpr hk), h.eflenBound⟩

theorem ValidInput.one_le_length {s : State} (h : ValidInput s) : 1 ≤ (inputBits s).length := by
  rw [length_inputBits]
  exact Nat.pos_of_ne_zero h.1

theorem State.Inv.length_inputBits_le {s : State} (h : s.Inv) : (inputBits s).length ≤ s.cfg.nmax := by
  rw [length_inputBits]
  exact h.ilenBound

theorem execLenc_keeps_inv {tech : BitVec 4} {s t : State} (hs : s.Inv) (h : execLenc tech s = .next t) : t.Inv := by
  obtain ⟨-, w, hw, e⟩ | ⟨-, -, e⟩ | ⟨-, e⟩ := execLenc_cases tech s <;> rw [e] at h <;> cases h
  · have hlen := length_lineEncode_le hw
    have hin := hs.length_inputBits_le
    exact (hs.writeWv (show w.length ≤ wmax _ by unfold wmax; omega)).setStatus .none
  · exact hs.raised .lenc .unsupportedTechnique
  · exact hs.raised .lenc .invalidInput

theorem execEcenc_keeps_inv {meth : BitVec 4} {s t : State} (hs : s.Inv) (h : execEcenc meth s = .next t) : t.Inv := by
  obtain ⟨hv, m, -, e⟩ | ⟨-, -, e⟩ | ⟨-, e⟩ := execEcenc_cases meth s <;> rw [e] at h <;> cases h
  · exact (hs.writeFrame m hv.one_le_length hs.length_inputBits_le).emptyDr.setStatus .none
  · exact hs.raised .ecenc .unsupportedMethod
  · exact hs.raised .ecenc .invalidInput

theorem execEcdec_keeps_inv {src : BitVec 1} {meth : BitVec 3} {s t : State} (hs : s.Inv)
    (h : execEcdec src meth s = .next t) : t.Inv := by
  obtain ⟨-, e⟩ | ⟨-, -, e⟩ | ⟨hk, m, -, ⟨-, e⟩ | ⟨-, c, -, e⟩ | ⟨-, r, hr, e⟩⟩ :=
    execEcdec_cases src meth s (f := (sourceFrame src s).1) (k := (sourceFrame src s).2) rfl <;>
    rw [e] at h <;> cases h
  · exact hs.raised .ecdec .invalidInput
  · exact hs.raised .ecdec .unsupportedMethod
  · exact hs.raised .ecdec .kindMismatch
  · exact hs.raised .ecdec c
  · obtain ⟨h1, hn⟩ := hs.sourceFrame_fits hk
    exact (hs.writeResult hr h1 hn).setStatus .none

theorem execInj_keeps_inv {s t : State} (hs : s.Inv) (h : execInj s = .next t) : t.Inv := by
  obtain ⟨-, e⟩ | ⟨-, -, e⟩ | ⟨-, hp, e⟩ := execInj_cases s <;> rw [e] at h <;> cases h
  · exact hs.raised .inj .invalidInput
  · exact hs.countDraw.raised .inj .indexRange
  · exact (hs.writeFlipped hp).emptyDr.outside ..

theorem execEcrun_keeps_inv {meth : BitVec 4} {s t : State} (hs : s.Inv) (h : execEcrun meth s = .next t) : t.Inv := by
  obtain ⟨-, e⟩ | ⟨-, -, e⟩ | ⟨hv, m, f, p, -, hf, -, ⟨-, e⟩ | ⟨-, c, -, e⟩ | ⟨hp, r, hr, e⟩⟩ :=
    execEcrun_cases meth s <;> rw [e] at h <;> cases h
  · exact hs.raised .ecrun .invalidInput
  · exact hs.raised .ecrun .unsupportedMethod
  · exact hs.countDraw.raised .ecrun .indexRange
  · exact hs.countDraw.raised .ecrun c
  · subst hf
    have hn := hs.length_inputBits_le
    have hframe := hs.countDraw.writeFrame m hv.one_le_length (by rwa [countDraw_cfg])
    have hflip := hframe.writeFlipped (p := p) hp
    refine (hflip.writeResult hr ?_ ?_).setStatus .none
    · rw [length_flipBit]; omega
    · simpa using length_encodeFrame_le m hn

theorem execClr_keeps_inv {s t : State} (hs : s.Inv) (h : execClr s = .next t) : t.Inv := by
  cases h
  exact (inv_resetOf hs.config).outside ..

/-! ### Every command is of one group -/

/-- The meaning of a command is the common part of its group, at the command's selector (R61). -/
theorem exec_by_group (i : Instr) (s : State) :
    (i = .clr ∧ exec i s = execClr s) ∨
    (i ∈ lencCommands ∧ ∃ tech, exec i s = execLenc tech s) ∨
    (i ∈ [.ecrunH, .ecrunC] ∧ ∃ meth, exec i s = execEcrun meth s) ∨
    (i ∈ [.henc, .cenc] ∧ ∃ meth, exec i s = execEcenc meth s) ∨
    (i ∈ [.hcorC, .cdetC, .hcorE, .cdetE] ∧ ∃ src meth, exec i s = execEcdec src meth s) ∨
    (i = .inj ∧ exec i s = execInj s) := by
  cases i
  case clr => exact .inl ⟨rfl, rfl⟩
  case lencNrzl => exact .inr (.inl ⟨by decide, 0, rfl⟩)
  case lencNrzi => exact .inr (.inl ⟨by decide, 1, rfl⟩)
  case lencRz => exact .inr (.inl ⟨by decide, 2, rfl⟩)
  case lencMan => exact .inr (.inl ⟨by decide, 3, rfl⟩)
  case lencDman => exact .inr (.inl ⟨by decide, 4, rfl⟩)
  case lencAmi => exact .inr (.inl ⟨by decide, 5, rfl⟩)
  case lencPst => exact .inr (.inl ⟨by decide, 6, rfl⟩)
  case ecrunH => exact .inr (.inr (.inl ⟨by decide, 0, rfl⟩))
  case ecrunC => exact .inr (.inr (.inl ⟨by decide, 1, rfl⟩))
  case henc => exact .inr (.inr (.inr (.inl ⟨by decide, 0, rfl⟩)))
  case cenc => exact .inr (.inr (.inr (.inl ⟨by decide, 1, rfl⟩)))
  case hcorC => exact .inr (.inr (.inr (.inr (.inl ⟨by decide, 0, 0, rfl⟩))))
  case cdetC => exact .inr (.inr (.inr (.inr (.inl ⟨by decide, 0, 1, rfl⟩))))
  case hcorE => exact .inr (.inr (.inr (.inr (.inl ⟨by decide, 1, 0, rfl⟩))))
  case cdetE => exact .inr (.inr (.inr (.inr (.inl ⟨by decide, 1, 1, rfl⟩))))
  case inj => exact .inr (.inr (.inr (.inr (.inr ⟨rfl, rfl⟩))))

theorem exec_keeps_inv {i : Instr} {s t : State} (hs : s.Inv) (h : exec i s = .next t) : t.Inv := by
  obtain ⟨-, e⟩ | ⟨-, tech, e⟩ | ⟨-, meth, e⟩ | ⟨-, meth, e⟩ | ⟨-, src, meth, e⟩ | ⟨-, e⟩ := exec_by_group i s <;>
    rw [e] at h
  · exact execClr_keeps_inv hs h
  · exact execLenc_keeps_inv hs h
  · exact execEcrun_keeps_inv hs h
  · exact execEcenc_keeps_inv hs h
  · exact execEcdec_keeps_inv hs h
  · exact execInj_keeps_inv hs h

theorem execRejected_keeps_inv {r : Rejection} {s t : State} (hs : s.Inv) (h : execRejected r s = .next t) : t.Inv := by
  cases r with
  | illegalCommand => cases h; exact hs.raised .nothing .illegalCommand
  | unsupportedTechnique tech => exact execLenc_keeps_inv hs h
  | unsupportedRunMethod meth => exact execEcrun_keeps_inv hs h
  | unsupportedEncodeMethod meth => exact execEcenc_keeps_inv hs h
  | unsupportedDecodeMethod src meth => exact execEcdec_keeps_inv hs h

theorem execWord_keeps_inv {w : Word} {s t : State} (hs : s.Inv) (h : execWord w s = .next t) : t.Inv := by
  unfold execWord at h
  split at h
  · exact exec_keeps_inv hs h
  · exact execRejected_keeps_inv hs h

theorem hostStore_keeps_inv {a v : Word} {s t : State} (hs : s.Inv) (h : hostStore a v s = some t) : t.Inv := by
  obtain ⟨-, -, rfl⟩ | ⟨-, rfl⟩ | ⟨-, hv, rfl⟩ | ⟨h1, h2, -, rfl⟩ := hostStore_cases h
  · exact hs.outside ..
  · exact hs.outside ..
  · exact hs.writeIlen hv
  · exact hs.writeCell (by omega) _

/-- Settles O19: every host event is a read, a write of a cell, a command word or a reset, and each keeps the
invariants. -/
theorem everyStepKeepsTheInvariants : Obligations.EveryStepKeepsTheInvariants := by
  unfold Obligations.EveryStepKeepsTheInvariants
  intro s t hs h
  have hrest (rest : List HostEvent) : State.Inv { s with pending := rest } := hs.outside ..
  obtain ⟨-, e⟩ | ⟨-, rest, -, ⟨a, -, e⟩ | ⟨a, v, u, -, -, hu, e⟩ | ⟨a, v, -, -, -, e⟩ | ⟨w, u, -, hu, e⟩ | ⟨-, e⟩⟩ :=
    step_cases s <;> rw [e] at h <;> cases h
  · exact hs
  · exact hs.outside ..
  · exact (hostStore_keeps_inv (hrest rest) hu).outside ..
  · exact hs.outside ..
  · exact (execWord_keeps_inv (hrest rest) hu).outside ..
  · exact (inv_resetOf hs.config).outside ..

/-- Settles O18: a case of `inv_resetOf`, with `NMAX = 64`. -/
theorem resetMeetsTheInvariants : Obligations.ResetMeetsTheInvariants := by
  unfold Obligations.ResetMeetsTheInvariants
  exact inv_resetOf (by decide)

/-! ### What each group of commands writes -/

theorem countDraw_eq (s : State) : countDraw s = { s with draws := (countDraw s).draws } := by
  unfold countDraw
  split <;> rfl

theorem execLenc_writes {tech : BitVec 4} {s t : State} (h : execLenc tech s = .next t) :
    t = { s with wv := t.wv, errc := t.errc, done := true } := by
  obtain ⟨-, w, -, e⟩ | ⟨-, -, e⟩ | ⟨-, e⟩ := execLenc_cases tech s <;> rw [e] at h <;> cases h <;> rfl

theorem execEcenc_writes {meth : BitVec 4} {s t : State} (h : execEcenc meth s = .next t) :
    t = { s with ef := t.ef, efk := t.efk, cf := [], cfk := .none, epos := 0, dr := [], drk := .none,
                 errc := t.errc, done := true } := by
  obtain ⟨-, m, -, e⟩ | ⟨-, -, e⟩ | ⟨-, e⟩ := execEcenc_cases meth s <;> rw [e] at h <;> cases h <;> rfl

theorem execEcdec_writes {src : BitVec 1} {meth : BitVec 3} {s t : State} (h : execEcdec src meth s = .next t) :
    t = { s with dr := t.dr, drk := t.drk, errc := t.errc, done := true } := by
  obtain ⟨-, e⟩ | ⟨-, -, e⟩ | ⟨-, m, -, ⟨-, e⟩ | ⟨-, c, -, e⟩ | ⟨-, r, -, e⟩⟩ :=
    execEcdec_cases src meth s (f := (sourceFrame src s).1) (k := (sourceFrame src s).2) rfl <;>
    rw [e] at h <;> cases h
  · rfl
  · rfl
  · rfl
  · rfl
  · cases r <;> rfl

theorem execInj_writes {s t : State} (h : execInj s = .next t) :
    t = { s with cf := t.cf, cfk := t.cfk, epos := t.epos, dr := [], drk := .none, errc := t.errc, done := true,
                 draws := t.draws } := by
  obtain ⟨-, e⟩ | ⟨-, -, e⟩ | ⟨-, -, e⟩ := execInj_cases s <;> rw [e] at h <;> cases h
  · rfl
  · rw [countDraw_eq]
  · rfl

theorem execEcrun_writes {meth : BitVec 4} {s t : State} (h : execEcrun meth s = .next t) :
    t = { s with ef := t.ef, efk := t.efk, cf := t.cf, cfk := t.cfk, epos := t.epos, dr := t.dr, drk := t.drk,
                 errc := t.errc, done := true, draws := t.draws } := by
  obtain ⟨-, e⟩ | ⟨-, -, e⟩ | ⟨-, m, f, p, -, -, -, ⟨-, e⟩ | ⟨-, c, -, e⟩ | ⟨-, r, -, e⟩⟩ :=
    execEcrun_cases meth s <;> rw [e] at h <;> cases h
  · rfl
  · rfl
  · rw [countDraw_eq]
  · rw [countDraw_eq]
  · rw [countDraw_eq]; cases r <;> rfl

/-- Settles O20: each group of commands writes only what its `_writes` lemma names. -/
theorem eachBufferHasItsOwnWriters : Obligations.EachBufferHasItsOwnWriters := by
  unfold Obligations.EachBufferHasItsOwnWriters
  intro i s t h
  obtain ⟨u, hu, hst⟩ := exec_next i s
  obtain rfl : u = t := by rw [hu] at h; cases h; rfl
  refine ⟨hst.cfg, hst.det, hst.ridx, hst.pending, hst.answers, ?_⟩
  obtain ⟨hi, e⟩ | ⟨hi, tech, e⟩ | ⟨hi, meth, e⟩ | ⟨hi, meth, e⟩ | ⟨hi, src, meth, e⟩ | ⟨hi, e⟩ := exec_by_group i s <;>
    rw [e] at h
  · simp [hi, lencCommands]
  · rw [execLenc_writes h]
    simp [hi]
  · rw [execEcrun_writes h]
    simp only [List.mem_cons, List.not_mem_nil, or_false] at hi
    rcases hi with rfl | rfl <;> simp [lencCommands]
  · rw [execEcenc_writes h]
    simp only [List.mem_cons, List.not_mem_nil, or_false] at hi
    rcases hi with rfl | rfl <;> simp [lencCommands]
  · rw [execEcdec_writes h]
    simp only [List.mem_cons, List.not_mem_nil, or_false] at hi
    rcases hi with rfl | rfl | rfl | rfl <;> simp [lencCommands]
  · rw [execInj_writes h]
    simp [hi, lencCommands]

/-! ### The codes and layouts -/

/-- The address of a cell of `WV` reads the level stored there. -/
theorem hostRead_wv {s : State} (hs : s.Inv) {a : Word} {k : Nat} {l : Level} (ha : a.toNat = 0x2000 + k)
    (hl : s.wv[k]? = some l) : hostRead a s = .okv (levelWord l) := by
  obtain ⟨hk, -⟩ := List.getElem?_eq_some_iff.mp hl
  obtain ⟨-, -, hwv, -⟩ := hs.bounds
  rw [hostRead_by_window hs, if_neg (by omega), if_neg (by omega), if_pos (by omega), ha]
  simp [bufferCell, hl]

/-- Settles O14: a `WV` cell reads as its level's code, and each of the three codes is checked. -/
theorem levelCodes : Obligations.LevelCodes := by
  unfold Obligations.LevelCodes
  refine ⟨⟨rfl, rfl, rfl⟩, fun l => by cases l <;> decide, fun s a k l hs ha hl => ?_⟩
  refine ⟨levelWord l, hostRead_wv hs ha hl, ?_, ?_⟩ <;> cases l <;> rfl

/-- Fields side by side, as a number. -/
theorem toNat_append_eq_add {m n : Nat} (x : BitVec m) (y : BitVec n) : (x ++ y).toNat = x.toNat * 2 ^ n + y.toNat := by
  rw [BitVec.toNat_append, ← Nat.shiftLeft_add_eq_or_of_lt y.isLt, Nat.shiftLeft_eq]

theorem toNat_statusWord (s : State) : (statusWord s).toNat = s.errc.code.toNat + 16 * s.done.toNat := by
  simp only [statusWord, toNat_append_eq_add, BitVec.toNat_ofBool, BitVec.toNat_ofNat]
  omega

theorem toNat_kindWord (s : State) :
    (kindWord s).toNat = s.efk.code.toNat + 4 * s.cfk.code.toNat + 16 * s.drk.code.toNat := by
  simp only [kindWord, toNat_append_eq_add, BitVec.toNat_ofNat]
  omega

/-- Settles O15: each register is its fields' codes side by side. -/
theorem statusAndKindLayouts : Obligations.StatusAndKindLayouts := by
  unfold Obligations.StatusAndKindLayouts
  refine ⟨fun s => ?_, fun s => ?_⟩
  · rw [toNat_statusWord]
    cases s.errc <;> rfl
  · rw [toNat_kindWord]
    congr 2
    · cases s.efk <;> rfl
    · cases s.cfk <;> rfl
    · cases s.drk <;> rfl

end Sys2Proof.Machine
end

section
/-! PROOF. The statements of 20_memory.md: what the host reads and writes at each address (O10, O11, O12), that a refused
access changes nothing (O9), that the map reaches the whole state (O13), and the step of a command word (O7). -/

namespace Sys2Proof.Machine

/-! ### A step is the next host event -/

theorem step_of_pending {s : State} {e : HostEvent} {rest : List HostEvent} (hp : s.pending = e :: rest) :
    step s = perform e { s with pending := rest } := by
  simp only [step, hp]

theorem execWord_of_decode {w : Word} {i : Instr} (h : decode w = .ok i) (s : State) : execWord w s = exec i s := by
  simp only [execWord, h]

theorem hostWrite_cmd {w : Word} {s t : State} (h : execWord w s = .next t) :
    hostWrite 0x0000#16 w s = .next (answer .ok t) := by
  simp only [hostWrite, h, if_true]

theorem hostWrite_stored {a v : Word} {s t : State} (ha : a ≠ 0x0000#16) (h : hostStore a v s = some t) :
    hostWrite a v s = .next (answer .ok t) := by
  simp only [hostWrite, if_neg ha, h]

theorem hostWrite_refused {a v : Word} {s : State} (ha : a ≠ 0x0000#16) (h : hostStore a v s = none) :
    hostWrite a v s = .next (answer .err s) := by
  simp only [hostWrite, if_neg ha, h]

/-- Settles O7: the write to `CMD` executes the decoded word, and a command neither faults nor is refused
(`exec_next`). -/
theorem stepRunsTheDecodedCommand : Obligations.StepRunsTheDecodedCommand := by
  unfold Obligations.StepRunsTheDecodedCommand
  intro s w i rest _ hp hd
  obtain ⟨u, hu, -⟩ := exec_next i { s with pending := rest }
  refine ⟨fun t ht => ?_, fun r hr => ?_, fun r hr => ?_⟩
  · rw [step_of_pending hp]
    exact hostWrite_cmd ((execWord_of_decode hd _).trans ht)
  · rw [hu] at hr; cases hr
  · rw [hu] at hr; cases hr

/-! ### Accepted and refused writes -/

theorem hostStore_answers {a v : Word} {s t : State} (h : hostStore a v s = some t) : t.answers = s.answers := by
  obtain ⟨-, -, rfl⟩ | ⟨-, rfl⟩ | ⟨-, -, rfl⟩ | ⟨-, -, -, rfl⟩ := hostStore_cases h <;> rfl

theorem hostStore_ctrl {v : Word} {s : State} (h : v.toNat ≤ 1) :
    hostStore 0x0002#16 v s = some (writeDet (v == 1#16) s) := if_pos h

theorem hostStore_ridx (v : Word) (s : State) : hostStore 0x0003#16 v s = some (writeRidx v s) := rfl

theorem hostStore_ilen {v : Word} {s : State} (h : v.toNat ≤ s.cfg.nmax) :
    hostStore 0x0004#16 v s = some (writeIlen v.toNat s) := if_pos h

theorem hostStore_cell {a v : Word} {s : State} {k : Nat} (ha : a.toNat = 0x1000 + k) (hk : k < s.cfg.nmax)
    (hv : v.toNat ≤ 0xFF) : hostStore a v s = some (writeCell k (v.setWidth 8) s) := by
  unfold hostStore
  dsimp only
  iterate 3 rw [if_neg (by omega)]
  rw [if_pos (by omega), if_pos hv, ha, Nat.add_sub_cancel_left]

/-- The writes that the port refuses: no writable cell is at the address, or the value does not fit it (R43, R47). -/
theorem hostStore_eq_none {a v : Word} {s : State} (hctrl : a.toNat = 2 → 1 < v.toNat) (hridx : a.toNat ≠ 3)
    (hilen : a.toNat = 4 → s.cfg.nmax < v.toNat)
    (hcell : 0x1000 ≤ a.toNat → a.toNat < 0x1000 + s.cfg.nmax → 0xFF < v.toNat) : hostStore a v s = none := by
  cases h : hostStore a v s with
  | none => rfl
  | some t =>
    obtain ⟨ha, hv, -⟩ | ⟨ha, -⟩ | ⟨ha, hv, -⟩ | ⟨h1, h2, hv, -⟩ := hostStore_cases h
    · have := hctrl ha; omega
    · exact absurd ha hridx
    · have := hilen ha; omega
    · have := hcell h1 h2; omega

/-- Settles O9: of the events of `step_cases` only a read or a refused write answers `ERR`, and neither changes the
state. -/
theorem errAnswersChangeNothing : Obligations.ErrAnswersChangeNothing := by
  unfold Obligations.ErrAnswersChangeNothing
  intro s t e rest hp h herr
  obtain ⟨hnil, -⟩ | ⟨e', rest', hp', hcases⟩ := step_cases s
  · rw [hnil] at hp; cases hp
  · obtain ⟨rfl, rfl⟩ := List.cons.inj (hp'.symm.trans hp)
    obtain ⟨a, -, e⟩ | ⟨a, v, u, -, -, hu, e⟩ | ⟨a, v, -, -, -, e⟩ | ⟨w, u, -, hu, e⟩ | ⟨-, e⟩ := hcases <;>
      rw [e] at h <;> cases h
    · rw [answer_answers] at herr
      rw [answer, herr]
    · rw [answer_answers, hostStore_answers hu] at herr
      simp at herr
    · rfl
    · obtain ⟨u', hu', hsame⟩ := execWord_next w { s with pending := rest' }
      obtain rfl : u = u' := by rw [hu] at hu'; cases hu'; rfl
      rw [answer_answers, hsame.answers] at herr
      simp at herr
    · simp at herr

theorem beq_one_eq_toNat (v : Word) : (v == 1#16) = (v.toNat == 1) := by
  rw [Bool.eq_iff_iff, beq_iff_eq, beq_iff_eq, ← BitVec.toNat_inj]
  rfl

/-- Settles O12: each clause is the equation of `hostStore` for its address; `CMD` runs `execWord`, which keeps the
answers. -/
theorem hostWriteFollowsTheMap : Obligations.HostWriteFollowsTheMap := by
  unfold Obligations.HostWriteFollowsTheMap
  intro s a v rest hs hp
  rw [step_of_pending hp, perform]
  refine ⟨?cmd, ?ctrl, ?ridx, ?ilen, ?cell, ?refused⟩
  case cmd =>
    rintro rfl
    obtain ⟨t, ht, hsame⟩ := execWord_next v { s with pending := rest }
    exact ⟨t, ht, by rw [hostWrite_cmd ht, answer, hsame.answers]⟩
  case ctrl =>
    rintro rfl hv
    rw [hostWrite_stored (by decide) (hostStore_ctrl hv), beq_one_eq_toNat]
    rfl
  case ridx =>
    rintro rfl
    exact hostWrite_stored (by decide) (hostStore_ridx v _)
  case ilen =>
    rintro rfl hv
    exact hostWrite_stored (by decide) (hostStore_ilen (s := { s with pending := rest }) hv)
  case cell =>
    intro k ha hk hv
    have h0 : a ≠ 0x0000#16 := by rintro rfl; simp at ha; omega
    refine ⟨_, hostWrite_stored h0 (hostStore_cell (s := { s with pending := rest }) ha hk hv), ?_, fun j hj => ?_⟩
    · rw [writeCell_inp, Memory.read_write hs.memory, if_pos rfl, BitVec.toNat_setWidth]
      omega
    · rw [writeCell_inp, Memory.read_write hs.memory, if_neg hj]
  case refused =>
    intro h
    have h0 : a ≠ 0x0000#16 := by rintro rfl; simp at h
    have h2 : a = 0x0002#16 ↔ a.toNat = 2 := BitVec.toNat_inj.symm
    have h4 : a = 0x0004#16 ↔ a.toNat = 4 := BitVec.toNat_inj.symm
    have h1 : a = 0x0001#16 ↔ a.toNat = 1 := BitVec.toNat_inj.symm
    rw [h1, h2, h4] at h
    exact hostWrite_refused h0 (hostStore_eq_none (by omega) (by omega) (by dsimp only; omega) (by dsimp only; omega))

/-! ### What each address reads as -/

@[simp] theorem hostRead_cmd (s : State) : hostRead 0x0000#16 s = .err := rfl
@[simp] theorem hostRead_status (s : State) : hostRead 0x0001#16 s = .okv (statusWord s) := rfl
@[simp] theorem hostRead_ctrl (s : State) : hostRead 0x0002#16 s = .okv (ctrlWord s) := rfl
@[simp] theorem hostRead_ridx (s : State) : hostRead 0x0003#16 s = .okv s.ridx := rfl
@[simp] theorem hostRead_ilen (s : State) : hostRead 0x0004#16 s = .okv (natWord s.ilen) := rfl
@[simp] theorem hostRead_wlen (s : State) : hostRead 0x0005#16 s = .okv (natWord s.wv.length) := rfl
@[simp] theorem hostRead_eflen (s : State) : hostRead 0x0006#16 s = .okv (natWord s.ef.length) := rfl
@[simp] theorem hostRead_cflen (s : State) : hostRead 0x0007#16 s = .okv (natWord s.cf.length) := rfl
@[simp] theorem hostRead_drlen (s : State) : hostRead 0x0008#16 s = .okv (natWord s.dr.length) := rfl
@[simp] theorem hostRead_epos (s : State) : hostRead 0x0009#16 s = .okv (natWord s.epos) := rfl
@[simp] theorem hostRead_kind (s : State) : hostRead 0x000A#16 s = .okv (kindWord s) := rfl

theorem ctrlWord_eq (s : State) : ctrlWord s = if s.det then 1#16 else 0#16 := by
  unfold ctrlWord
  cases s.det <;> rfl

/-- What the host reads `k` cells into a window. -/
def Window.read (k : Nat) (s : State) : Window → Response
  | .inp => inputRead k s
  | .wv => bufferCell levelWord s.wv k
  | .ef => bufferCell bitWord s.ef k
  | .cf => bufferCell bitWord s.cf k
  | .dr => bufferCell bitWord s.dr k

/-- How many cells of a window are mapped (R44). -/
def Window.mapped (s : State) : Window → Nat
  | .inp => s.cfg.nmax
  | .wv => s.wv.length
  | .ef => s.ef.length
  | .cf => s.cf.length
  | .dr => s.dr.length

theorem Window.mapped_le {s : State} (hs : s.Inv) (w : Window) : w.mapped s ≤ 0x1000 := by
  obtain ⟨hn, -, hwv, hef, hcf, hdr, -⟩ := hs.bounds
  cases w <;> simp only [Window.mapped] <;> omega

theorem Window.read_beyond {w : Window} {s : State} {k : Nat} (h : w.mapped s ≤ k) : w.read k s = .err := by
  cases w with
  | inp => exact if_neg (Nat.not_lt.mpr h)
  | wv => exact bufferCell_beyond _ h
  | ef => exact bufferCell_beyond _ h
  | cf => exact bufferCell_beyond _ h
  | dr => exact bufferCell_beyond _ h

theorem hostRead_window {s : State} (hs : s.Inv) (w : Window) {a : Word} {k : Nat} (ha : a.toNat = w.base + k)
    (hk : k < 0x1000) : hostRead a s = w.read k s := by
  rw [hostRead_by_window hs, ha]
  cases w <;> simp only [Window.base, Window.read, Nat.add_sub_cancel_left] <;> rw [if_neg (by omega)]
  case inp => rw [if_pos (by omega)]
  case wv => rw [if_neg (by omega), if_pos (by omega)]
  case ef => rw [if_neg (by omega), if_neg (by omega), if_pos (by omega)]
  case cf => rw [if_neg (by omega), if_neg (by omega), if_neg (by omega), if_pos (by omega)]
  case dr => rw [if_neg (by omega), if_neg (by omega), if_neg (by omega), if_neg (by omega), if_pos (by omega)]

/-- A mapped cell of a window that holds bits reads as its bit, zero-extended (R42). -/
theorem exists_hostRead_bit {s : State} (hs : s.Inv) (w : Window) {f : List Bit}
    (hw : ∀ k, w.read k s = bufferCell bitWord f k) (hf : w.mapped s = f.length) {a : Word} {k : Nat} {b : Bit}
    (ha : a.toNat = w.base + k) (hb : f[k]? = some b) :
    ∃ v : Word, hostRead a s = .okv v ∧ v.toNat = b.toNat := by
  obtain ⟨hk, -⟩ := List.getElem?_eq_some_iff.mp hb
  have := w.mapped_le hs
  refine ⟨bitWord b, ?_, toNat_bitWord b⟩
  rw [hostRead_window hs w ha (by omega), hw, bufferCell, hb]

/-- Settles O10: the registers by their own equations, the windows by `hostRead_window`. -/
theorem hostReadFollowsTheMap : Obligations.HostReadFollowsTheMap := by
  unfold Obligations.HostReadFollowsTheMap
  refine ⟨fun s hs => ?_, fun s a rest hp => ?_⟩
  · obtain ⟨hn, hi, hwv, hef, hcf, hdr, hp⟩ := hs.bounds
    refine ⟨hostRead_cmd s, hostRead_status s, (hostRead_ctrl s).trans (congrArg Response.okv (ctrlWord_eq s)),
      hostRead_ridx s, ⟨_, hostRead_ilen s, toNat_natWord (by omega)⟩, ⟨_, hostRead_wlen s, toNat_natWord (by omega)⟩,
      ⟨_, hostRead_eflen s, toNat_natWord (by omega)⟩, ⟨_, hostRead_cflen s, toNat_natWord (by omega)⟩,
      ⟨_, hostRead_drlen s, toNat_natWord (by omega)⟩, ⟨_, hostRead_epos s, toNat_natWord (by omega)⟩, hostRead_kind s,
      fun a k ha hk => ?_, fun a k l ha hl => hostRead_wv hs ha hl,
      fun a k b ha hb => exists_hostRead_bit hs .ef (fun _ => rfl) rfl ha hb,
      fun a k b ha hb => exists_hostRead_bit hs .cf (fun _ => rfl) rfl ha hb,
      fun a k b ha hb => exists_hostRead_bit hs .dr (fun _ => rfl) rfl ha hb⟩
    refine ⟨symWord (s.inp.read k), ?_, toNat_symWord _⟩
    rw [hostRead_window hs .inp ha (by omega)]
    exact if_pos hk
  · rw [step_of_pending hp]
    rfl

/-! ### Unmapped addresses -/

theorem registerRead_beyond {n : Nat} (h : 0x000B ≤ n) (s : State) : registerRead n s = .err := by
  unfold registerRead
  iterate 11 rw [if_neg (by omega)]

theorem hostRead_beyond_registers {s : State} (hs : s.Inv) {a : Word} (h : 0x000B ≤ a.toNat) (h' : a.toNat ≤ 0x0FFF) :
    hostRead a s = .err := by
  rw [hostRead_by_window hs, if_pos (by omega), registerRead_beyond h]

theorem hostRead_beyond_windows {s : State} (hs : s.Inv) {a : Word} (h : 0x6000 ≤ a.toNat) : hostRead a s = .err := by
  rw [hostRead_by_window hs]
  iterate 6 rw [if_neg (by omega)]

theorem hostRead_tail {s : State} (hs : s.Inv) (w : Window) {a : Word} (h : w.base + w.mapped s ≤ a.toNat)
    (h' : a.toNat ≤ w.base + 0x0FFF) : hostRead a s = .err := by
  rw [hostRead_window hs w (k := a.toNat - w.base) (by omega) (by omega), Window.read_beyond (by omega)]

/-- Settles O11: no register and no mapped cell is at such an address, and none that can be written. -/
theorem unmappedAddressesAreRefused : Obligations.UnmappedAddressesAreRefused := by
  unfold Obligations.UnmappedAddressesAreRefused
  intro s a v hs h
  have hn := hs.config.2
  refine ⟨?read, ?write⟩
  case read =>
    obtain ⟨h1, h2⟩ | h1 | ⟨h1, h2⟩ | ⟨h1, h2⟩ | ⟨h1, h2⟩ | ⟨h1, h2⟩ | ⟨h1, h2⟩ := h
    · exact hostRead_beyond_registers hs h1 h2
    · exact hostRead_beyond_windows hs h1
    · exact hostRead_tail hs .inp h1 h2
    · exact hostRead_tail hs .wv h1 h2
    · exact hostRead_tail hs .ef h1 h2
    · exact hostRead_tail hs .cf h1 h2
    · exact hostRead_tail hs .dr h1 h2
  case write =>
    have h0 : a ≠ 0x0000#16 := by rintro rfl; simp at h
    exact hostWrite_refused h0 (hostStore_eq_none (by omega) (by omega) (by omega) (by omega))

/-! ### What is read determines what is stored -/

theorem ErrCode.code_injective : Function.Injective ErrCode.code := by
  intro a b h
  cases a <;> cases b <;> revert h <;> decide

theorem FrameKind.code_injective : Function.Injective FrameKind.code := by
  intro a b h
  cases a <;> cases b <;> revert h <;> decide

theorem ResultKind.code_injective : Function.Injective ResultKind.code := by
  intro a b h
  cases a <;> cases b <;> revert h <;> decide

theorem levelWord_injective : Function.Injective levelWord := by
  intro a b h
  cases a <;> cases b <;> revert h <;> decide

theorem bitToNat_injective : Function.Injective Bool.toNat := by
  intro a b h
  cases a <;> cases b <;> revert h <;> decide

theorem bitWord_injective : Function.Injective bitWord := by
  intro a b h
  exact bitToNat_injective (by rw [← toNat_bitWord, h, toNat_bitWord])

theorem symWord_injective : Function.Injective symWord := by
  intro a b h
  rw [← BitVec.toNat_inj, ← toNat_symWord, h, toNat_symWord]

theorem natWord_inj {m n : Nat} (hm : m < 65536) (hn : n < 65536) (h : natWord m = natWord n) : m = n := by
  rw [← toNat_natWord hm, h, toNat_natWord hn]

theorem statusWord_inj {s t : State} (h : statusWord s = statusWord t) : s.errc = t.errc ∧ s.done = t.done := by
  have hw := congrArg BitVec.toNat h
  rw [toNat_statusWord, toNat_statusWord] at hw
  have hs := s.errc.code.isLt
  have ht := t.errc.code.isLt
  exact ⟨ErrCode.code_injective (BitVec.eq_of_toNat_eq (by omega)), bitToNat_injective (by omega)⟩

theorem ctrlWord_inj {s t : State} (h : ctrlWord s = ctrlWord t) : s.det = t.det := by
  rw [ctrlWord_eq, ctrlWord_eq] at h
  revert h
  cases s.det <;> cases t.det <;> decide

theorem kindWord_inj {s t : State} (h : kindWord s = kindWord t) : s.efk = t.efk ∧ s.cfk = t.cfk ∧ s.drk = t.drk := by
  have hw := congrArg BitVec.toNat h
  rw [toNat_kindWord, toNat_kindWord] at hw
  have hse := s.efk.code.isLt
  have hsc := s.cfk.code.isLt
  have hte := t.efk.code.isLt
  have htc := t.cfk.code.isLt
  exact ⟨FrameKind.code_injective (BitVec.eq_of_toNat_eq (by omega)),
    FrameKind.code_injective (BitVec.eq_of_toNat_eq (by omega)),
    ResultKind.code_injective (BitVec.eq_of_toNat_eq (by omega))⟩

theorem getElem?_of_bufferCell {α : Type} {w : α → Word} (hw : Function.Injective w) {l l' : List α} {k : Nat}
    (h : bufferCell w l k = bufferCell w l' k) : l[k]? = l'[k]? := by
  unfold bufferCell at h
  revert h
  cases l[k]? <;> cases l'[k]? <;> intro h
  case none.none => rfl
  case none.some y => cases h
  case some.none x => cases h
  case some.some x y => exact congrArg some (hw (Response.okv.inj h))

/-- A buffer that fits its window is determined by the cells of the window, the `ERR` of the missing ones included. -/
theorem eq_of_bufferCell {α : Type} {w : α → Word} (hw : Function.Injective w) {l l' : List α}
    (hl : l.length ≤ 0x1000) (hl' : l'.length ≤ 0x1000) (h : ∀ k < 0x1000, bufferCell w l k = bufferCell w l' k) :
    l = l' := by
  refine List.ext_getElem? fun k => ?_
  by_cases hk : k < 0x1000
  · exact getElem?_of_bufferCell hw (h k hk)
  · rw [List.getElem?_eq_none (by omega), List.getElem?_eq_none (by omega)]

/-- A cell beyond every listed one is not listed. -/
theorem Memory.read_beyond {m : Memory} {n a : Nat} (hm : m.below n) (ha : n ≤ a) : m.read a = Memory.unlisted := by
  induction m with
  | nil => rfl
  | cons c m ih =>
    obtain ⟨b, v⟩ := c
    have hb : b < n := hm (b, v) (by simp)
    rw [Memory.read_cons, if_neg (by omega), ih fun c hc => hm c (by simp [hc])]

/-- `IN` is determined by its mapped cells. -/
theorem eq_of_inputRead {s t : State} (hs : s.Inv) (ht : t.Inv) (hcfg : s.cfg = t.cfg)
    (h : ∀ k < 0x1000, inputRead k s = inputRead k t) : s.inp = t.inp := by
  refine Memory.ext_of_read hs.memory ht.memory fun k => ?_
  have hn := hs.config.2
  by_cases hk : k < s.cfg.nmax
  · have := h k (by omega)
    rw [inputRead, inputRead, if_pos hk, if_pos (by rwa [← hcfg])] at this
    exact symWord_injective (Response.okv.inj this)
  · rw [Memory.read_beyond hs.cells (by omega), Memory.read_beyond ht.cells (by rw [← hcfg]; omega)]

theorem Window.toNat_cell (w : Window) {k : Nat} (hk : k < 0x1000) : (w.cell k).toNat = w.base + k := by
  cases w <;> simp only [Window.cell, Window.base, BitVec.toNat_ofNat] <;> omega

/-- Settles O13: each register word and each window determines what it shows. -/
theorem everyPieceOfStateCanBeRead : Obligations.EveryPieceOfStateCanBeRead := by
  unfold Obligations.EveryPieceOfStateCanBeRead
  intro s t hs ht hcfg h
  have hwindow (w : Window) (k : Nat) (hk : k < 0x1000) : w.read k s = w.read k t := by
    rw [← hostRead_window hs w (w.toNat_cell hk) hk, h, hostRead_window ht w (w.toNat_cell hk) hk]
  obtain ⟨-, hilen, -, -, -, -, hepos⟩ := hs.bounds
  obtain ⟨-, hilen', -, -, -, -, hepos'⟩ := ht.bounds
  obtain ⟨errc, done⟩ := statusWord_inj (by simpa using h 0x0001#16)
  have det := ctrlWord_inj (by simpa using h 0x0002#16)
  have ridx : s.ridx = t.ridx := by simpa using h 0x0003#16
  have ilen : s.ilen = t.ilen := natWord_inj (by omega) (by omega) (by simpa using h 0x0004#16)
  have epos : s.epos = t.epos := natWord_inj (by omega) (by omega) (by simpa using h 0x0009#16)
  obtain ⟨efk, cfk, drk⟩ := kindWord_inj (by simpa using h 0x000A#16)
  have inp := eq_of_inputRead hs ht hcfg (hwindow .inp)
  have fits (w : Window) : w.mapped s ≤ 0x1000 ∧ w.mapped t ≤ 0x1000 := ⟨w.mapped_le hs, w.mapped_le ht⟩
  have wv : s.wv = t.wv := eq_of_bufferCell levelWord_injective (fits .wv).1 (fits .wv).2 (hwindow .wv)
  have ef : s.ef = t.ef := eq_of_bufferCell bitWord_injective (fits .ef).1 (fits .ef).2 (hwindow .ef)
  have cf : s.cf = t.cf := eq_of_bufferCell bitWord_injective (fits .cf).1 (fits .cf).2 (hwindow .cf)
  have dr : s.dr = t.dr := eq_of_bufferCell bitWord_injective (fits .dr).1 (fits .dr).2 (hwindow .dr)
  simp only [State.specPart, hcfg, inp, ilen, wv, ef, efk, cf, cfk, epos, dr, drk, errc, done, det, ridx]

end Sys2Proof.Machine
end

section
/-! PROOF. The statements of 30_encoding.md: that decode and encode agree (O1, O2), what every word executes by its fields
(O3), and what each group of commands leaves unchanged (O31, O39, O47, O52). -/

namespace Sys2Proof.Machine

/-! ### What a word is read as, and what it runs -/

/-- The decoder's answer for the word `w`: either the word is a command (`true`), and the answer is the command that
encodes to `w` and runs as `run`, or it is none (`false`), and the answer is a rejection with the effect `run`. -/
inductive ReadsAs (w : Word) (run : State → Result) : Bool → Except Rejection Instr → Prop where
  /-- the word is a command -/
  | command (i : Instr) (hword : encode i = w) (hrun : ∀ s, exec i s = run s) : ReadsAs w run true (.ok i)
  /-- the word is none -/
  | rejected (r : Rejection) (hrun : ∀ s, execRejected r s = run s) : ReadsAs w run false (.error r)

theorem ReadsAs.of_eq {w w' : Word} {run run' : State → Result} {b b' : Bool} {d d' : Except Rejection Instr}
    (h : ReadsAs w run b d) (hw : w = w') (hrun : ∀ s, run' s = run s) (hb : b' = b) (hd : d' = d) :
    ReadsAs w' run' b' d' := by
  obtain rfl := funext hrun
  subst hw hb hd
  exact h

theorem ReadsAs.encode_eq {w : Word} {run : State → Result} {b : Bool} {i : Instr} (h : ReadsAs w run b (.ok i)) :
    encode i = w := by
  cases h with | command _ hword _ => exact hword

theorem ReadsAs.known_iff {w : Word} {run : State → Result} {b : Bool} {d : Except Rejection Instr}
    (h : ReadsAs w run b d) : b = true ↔ ∃ i, d = .ok i := by
  cases h with
  | command i hword hrun => exact ⟨fun _ => ⟨i, rfl⟩, fun _ => rfl⟩
  | rejected r hrun => simp

theorem ReadsAs.execWord_eq {w : Word} {run : State → Result} {b : Bool} (h : ReadsAs w run b (decode w)) (s : State) :
    execWord w s = run s := by
  unfold execWord
  generalize decode w = d at h
  cases h with
  | command i hword hrun => exact hrun s
  | rejected r hrun => exact hrun s

theorem ofNat_toNat_same {n : Nat} (x : BitVec n) : BitVec.ofNat n x.toNat = x := by
  rw [BitVec.ofNat_toNat, BitVec.setWidth_eq]

/-- The selectors up to `b` have a reading and the others have none. -/
theorem ReadsAs.of_selector {w : Word} {run : State → Result} {d : Except Rejection Instr} {n b : Nat} {sel : BitVec n}
    (hle : ∀ k ≤ b, sel = BitVec.ofNat n k → ReadsAs w run true d) (hgt : b < sel.toNat → ReadsAs w run false d) :
    ReadsAs w run (decide (sel.toNat ≤ b)) d := by
  by_cases h : sel.toNat ≤ b
  · rw [decide_eq_true h]
    exact hle sel.toNat h (ofNat_toNat_same sel).symm
  · rw [decide_eq_false h]
    exact hgt (Nat.not_le.mp h)

/-- Group `LENC` (R58). -/
theorem decodeTechnique_reads (tech : BitVec 4) :
    ReadsAs (commandWord 1 tech) (execLenc tech) (decide (tech.toNat ≤ 6)) (decodeTechnique tech) := by
  refine .of_selector ?_ fun h => ?_
  · rintro k hk rfl
    interval_cases k <;> exact .command _ rfl fun _ => rfl
  · unfold decodeTechnique
    split
    case h_8 => exact .rejected _ fun _ => rfl
    all_goals omega

/-- Group `ECRUN` (R59). -/
theorem decodeRunMethod_reads (meth : BitVec 4) :
    ReadsAs (commandWord 2 meth) (execEcrun meth) (decide (meth.toNat ≤ 1)) (decodeRunMethod meth) := by
  refine .of_selector ?_ fun h => ?_
  · rintro k hk rfl
    interval_cases k <;> exact .command _ rfl fun _ => rfl
  · unfold decodeRunMethod
    split
    case h_3 => exact .rejected _ fun _ => rfl
    all_goals omega

/-- Group `ECENC` (R59). -/
theorem decodeEncodeMethod_reads (meth : BitVec 4) :
    ReadsAs (commandWord 3 meth) (execEcenc meth) (decide (meth.toNat ≤ 1)) (decodeEncodeMethod meth) := by
  refine .of_selector ?_ fun h => ?_
  · rintro k hk rfl
    interval_cases k <;> exact .command _ rfl fun _ => rfl
  · unfold decodeEncodeMethod
    split
    case h_3 => exact .rejected _ fun _ => rfl
    all_goals omega

/-- Group `ECDEC`, whose selector is `SRC` and `METH` side by side (R59). -/
theorem decodeDecodeMethod_reads (src : BitVec 1) (meth : BitVec 3) :
    ReadsAs (commandWord 4 (src ++ meth)) (execEcdec src meth) (decide (meth.toNat ≤ 1))
      (decodeDecodeMethod src meth) := by
  refine .of_selector ?_ fun h => ?_
  · rintro k hk rfl
    obtain rfl | rfl := BitVec.eq_zero_or_eq_one src <;> interval_cases k <;> exact .command _ rfl fun _ => rfl
  · unfold decodeDecodeMethod
    split
    case h_5 => exact .rejected _ fun _ => rfl
    all_goals omega

/-- Groups `CTL` and `INJ`: one command, at selector 0 (R57). -/
theorem decodeSingle_reads {w : Word} {i : Instr} {sel : BitVec 4} (h : sel = 0#4 → encode i = w) :
    ReadsAs w (fun s => if sel.toNat = 0 then exec i s else execIllegal s) (sel.toNat == 0)
      (if sel = 0#4 then .ok i else .error .illegalCommand) := by
  by_cases hs : sel = 0#4
  · subst hs
    exact .command i (h rfl) fun _ => rfl
  · have hn : sel.toNat ≠ 0 := mt (BitVec.eq_of_toNat_eq (y := 0#4)) hs
    rw [if_neg hs, beq_false_of_ne hn]
    exact .rejected _ fun s => (if_neg hn).symm

/-- The illegal class (R64). -/
theorem illegal_reads (w : Word) : ReadsAs w execIllegal false (.error .illegalCommand) :=
  .rejected _ fun _ => rfl

theorem fieldSel_eq (w : Word) : fieldSel w = fieldSrc w ++ fieldDecodeMeth w := by
  apply BitVec.eq_of_toNat_eq
  obtain ⟨-, -, hsel, hsrc, hmeth⟩ := toNat_fields w
  rw [toNat_append_eq_add, hsel, hsrc, hmeth]
  omega

theorem commandWord_fields {w : Word} (h : fieldRsv w = 0#8) : commandWord (fieldOpc w) (fieldSel w) = w := by
  conv_rhs => rw [word_fields w, h]
  rfl

/-- What a word runs, by the numbers in its fields (R63). -/
def execFields (rsv opc sel : Nat) (s : State) : Result :=
  if rsv ≠ 0 then execIllegal s
  else if opc = 0 ∧ sel = 0 then exec .clr s
  else if opc = 0 then execIllegal s
  else if opc = 1 then execLenc (BitVec.ofNat 4 sel) s
  else if opc = 2 then execEcrun (BitVec.ofNat 4 sel) s
  else if opc = 3 then execEcenc (BitVec.ofNat 4 sel) s
  else if opc = 4 then execEcdec (BitVec.ofNat 1 (sel / 8)) (BitVec.ofNat 3 (sel % 8)) s
  else if opc = 5 ∧ sel = 0 then exec .inj s
  else execIllegal s

theorem execFields_ctl (sel : Nat) (s : State) :
    execFields 0 0 sel s = if sel = 0 then exec .clr s else execIllegal s := by
  by_cases h : sel = 0
  · subst h
    rfl
  · rw [execFields, if_neg (not_not.mpr rfl), if_neg fun hc => h hc.2, if_pos rfl, if_neg h]

theorem execFields_inj (sel : Nat) (s : State) :
    execFields 0 5 sel s = if sel = 0 then exec .inj s else execIllegal s := by
  by_cases h : sel = 0
  · subst h
    rfl
  · rw [execFields]
    iterate 8 rw [if_neg (by omega)]
    rw [if_neg h]

theorem execFields_lenc (sel : BitVec 4) (s : State) : execFields 0 1 sel.toNat s = execLenc sel s :=
  congrArg (execLenc · s) (ofNat_toNat_same sel)

theorem execFields_ecrun (sel : BitVec 4) (s : State) : execFields 0 2 sel.toNat s = execEcrun sel s :=
  congrArg (execEcrun · s) (ofNat_toNat_same sel)

theorem execFields_ecenc (sel : BitVec 4) (s : State) : execFields 0 3 sel.toNat s = execEcenc sel s :=
  congrArg (execEcenc · s) (ofNat_toNat_same sel)

theorem execFields_ecdec {src : BitVec 1} {meth : BitVec 3} {sel : Nat} (hsrc : src.toNat = sel / 8)
    (hmeth : meth.toNat = sel % 8) (s : State) : execFields 0 4 sel s = execEcdec src meth s := by
  rw [← ofNat_toNat_same src, ← ofNat_toNat_same meth, hsrc, hmeth]
  rfl

theorem decode_of_reserved {w : Word} (h : fieldRsv w ≠ 0#8) : decode w = .error .illegalCommand := if_pos h

theorem decode_of_unknown_group {w : Word} (h : 5 < (fieldOpc w).toNat) : decode w = .error .illegalCommand := by
  unfold decode
  split
  case isTrue => rfl
  case isFalse =>
    split
    case h_7 => rfl
    all_goals omega

/-- Every word: it is a command exactly when it is well formed, and either way it runs by its fields. -/
theorem decode_reads (w : Word) :
    ReadsAs w (execFields (w.toNat / 256) (w.toNat / 16 % 16) (w.toNat % 16)) (wordWellFormed w) (decode w) := by
  obtain ⟨hrsv, hopc, hsel, hsrc, hmeth⟩ := toNat_fields w
  have hlow : w.toNat % 8 = (fieldSel w).toNat % 8 := by omega
  rw [← hsel] at hsrc
  rw [hlow] at hmeth
  rw [← hrsv, ← hopc, ← hsel]
  have hclear : wordReservedClear w = ((fieldRsv w).toNat == 0) := by rw [hrsv]; rfl
  have hknown : wordGroupKnown w = decide ((fieldOpc w).toNat ≤ 5) := by rw [hopc]; rfl
  by_cases hr : fieldRsv w = 0#8
  case neg =>
    have hr0 : (fieldRsv w).toNat ≠ 0 := mt (BitVec.eq_of_toNat_eq (y := 0#8)) hr
    refine (illegal_reads w).of_eq rfl (fun s => if_pos hr0) ?_ (decode_of_reserved hr)
    rw [wordWellFormed, hclear, beq_false_of_ne hr0, Bool.false_and, Bool.false_and]
  case pos =>
    have hr0 : (fieldRsv w).toNat = 0 := by rw [hr]; rfl
    have hw (k : BitVec 4) (ho : (fieldOpc w).toNat = k.toNat) : commandWord k (fieldSel w) = w := by
      rw [← BitVec.eq_of_toNat_eq ho]
      exact commandWord_fields hr
    have hform (ho : (fieldOpc w).toNat ≤ 5) : wordWellFormed w = wordSelectorKnown w := by
      rw [wordWellFormed, hclear, hknown, hr0, decide_eq_true ho]
      rfl
    rcases Nat.lt_or_ge 5 (fieldOpc w).toNat with ho | ho
    · refine (illegal_reads w).of_eq rfl (fun s => ?_) ?_ (decode_of_unknown_group ho)
      · unfold execFields
        iterate 8 rw [if_neg (by omega)]
      · rw [wordWellFormed, hknown, decide_eq_false (by omega), Bool.and_false, Bool.false_and]
    · rw [hform ho]
      unfold wordSelectorKnown decode
      rw [if_neg (not_not.mpr hr), ← hopc, ← hsel, hlow, hr0]
      generalize hk : (fieldOpc w).toNat = k at ho
      interval_cases k
      · refine (decodeSingle_reads fun h => ?_).of_eq rfl (execFields_ctl _) rfl rfl
        rw [← hw 0 hk, h]
        rfl
      · exact (decodeTechnique_reads _).of_eq (hw 1 hk) (execFields_lenc _) rfl rfl
      · exact (decodeRunMethod_reads _).of_eq (hw 2 hk) (execFields_ecrun _) rfl rfl
      · exact (decodeEncodeMethod_reads _).of_eq (hw 3 hk) (execFields_ecenc _) rfl rfl
      · rw [← hmeth]
        exact (decodeDecodeMethod_reads _ _).of_eq (fieldSel_eq w ▸ hw 4 hk) (execFields_ecdec hsrc hmeth) rfl rfl
      · refine (decodeSingle_reads fun h => ?_).of_eq rfl (execFields_inj _) rfl rfl
        rw [← hw 5 hk, h]
        rfl

/-! ### Decode and encode -/

theorem decode_encode (i : Instr) : decode (encode i) = .ok i := by
  cases i <;> rfl

/-- Settles O1: the words are the encoder's, and it is undone by the decoder. -/
theorem seventeenWordsDecode : Obligations.SeventeenWordsDecode := by
  unfold Obligations.SeventeenWordsDecode
  exact ⟨decode_encode .clr, decode_encode .lencNrzl, decode_encode .lencNrzi, decode_encode .lencRz,
    decode_encode .lencMan, decode_encode .lencDman, decode_encode .lencAmi, decode_encode .lencPst,
    decode_encode .ecrunH, decode_encode .ecrunC, decode_encode .henc, decode_encode .cenc, decode_encode .hcorC,
    decode_encode .cdetC, decode_encode .hcorE, decode_encode .cdetE, decode_encode .inj⟩

/-- Settles O2: `decode_encode` one way, and `decode_reads` the other way and for the well-formed words. -/
theorem decodeAndEncodeAgree : Obligations.DecodeAndEncodeAgree := by
  unfold Obligations.DecodeAndEncodeAgree
  refine ⟨fun w i _ => ⟨fun h => ?_, fun h => h ▸ decode_encode i⟩, fun w => (decode_reads w).known_iff⟩
  exact (h ▸ decode_reads w).encode_eq

/-- Settles O3: a word runs by its fields (`decode_reads`), and the illegal effect writes only `STATUS`. -/
theorem everyWordIsDispatchedByItsFields : Obligations.EveryWordIsDispatchedByItsFields := by
  unfold Obligations.EveryWordIsDispatchedByItsFields
  rintro w s _ _ _ rfl rfl rfl
  exact (decode_reads w).execWord_eq s

/-! ### What the host still reads after a command -/

theorem exists_window {n : Nat} (h : 0x1000 ≤ n) (h' : n < 0x6000) :
    ∃ (w : Window) (k : Nat), k < 0x1000 ∧ n = w.base + k := by
  by_cases h2 : n < 0x2000
  · exact ⟨.inp, n - 0x1000, by omega, by simp only [Window.base]; omega⟩
  by_cases h3 : n < 0x3000
  · exact ⟨.wv, n - 0x2000, by omega, by simp only [Window.base]; omega⟩
  by_cases h4 : n < 0x4000
  · exact ⟨.ef, n - 0x3000, by omega, by simp only [Window.base]; omega⟩
  by_cases h5 : n < 0x5000
  · exact ⟨.cf, n - 0x4000, by omega, by simp only [Window.base]; omega⟩
  · exact ⟨.dr, n - 0x5000, by omega, by simp only [Window.base]; omega⟩

/-- Two states of the block read the same where their registers and their windows do. -/
theorem portAgrees_of_registers_of_windows {p : Nat → Prop} {s t : State} (hs : s.Inv) (ht : t.Inv)
    (hreg : ∀ n, p n → registerRead n t = registerRead n s)
    (hwin : ∀ (w : Window) (k : Nat), k < 0x1000 → p (w.base + k) → w.read k t = w.read k s) : PortAgrees p s t := by
  intro a ha
  by_cases h1 : a.toNat < 0x1000
  · rw [hostRead_by_window hs, hostRead_by_window ht, if_pos h1, if_pos h1, hreg _ ha]
  by_cases h2 : a.toNat < 0x6000
  · obtain ⟨w, k, hk, e⟩ := exists_window (Nat.not_lt.mp h1) h2
    rw [hostRead_window hs w e hk, hostRead_window ht w e hk, hwin w k hk (e ▸ ha)]
  · rw [hostRead_beyond_windows hs (Nat.not_lt.mp h2), hostRead_beyond_windows ht (Nat.not_lt.mp h2)]

theorem execLenc_portAgrees {tech : BitVec 4} {s t : State} (hs : s.Inv) (h : execLenc tech s = .next t) :
    PortAgrees (fun a => a ≠ 0x0001 ∧ a ≠ 0x0005 ∧ ¬ (0x2000 ≤ a ∧ a < 0x3000)) s t := by
  refine portAgrees_of_registers_of_windows hs (execLenc_keeps_inv hs h) ?_ ?_ <;> rw [execLenc_writes h]
  · rintro n ⟨hstatus, hwlen, -⟩
    simp only [registerRead, if_neg hstatus, if_neg hwlen]
    rfl
  · rintro w k hk ⟨-, -, hwv⟩
    cases w
    case wv => simp only [Window.base] at hwv; omega
    all_goals rfl

theorem execEcdec_portAgrees {src : BitVec 1} {meth : BitVec 3} {s t : State} (hs : s.Inv)
    (h : execEcdec src meth s = .next t) :
    PortAgrees (fun a => a ≠ 0x0001 ∧ a ≠ 0x0008 ∧ a ≠ 0x000A ∧ ¬ (0x5000 ≤ a ∧ a < 0x6000)) s t := by
  refine portAgrees_of_registers_of_windows hs (execEcdec_keeps_inv hs h) ?_ ?_ <;> rw [execEcdec_writes h]
  · rintro n ⟨hstatus, hdrlen, hkind, -⟩
    simp only [registerRead, if_neg hstatus, if_neg hdrlen, if_neg hkind]
    rfl
  · rintro w k hk ⟨-, -, -, hdr⟩
    cases w
    case dr => simp only [Window.base] at hdr; omega
    all_goals rfl

theorem execInj_portAgrees {s t : State} (hs : s.Inv) (h : execInj s = .next t) :
    PortAgrees (fun a => a ≠ 0x0001 ∧ ¬ (0x0007 ≤ a ∧ a ≤ 0x000A) ∧ ¬ (0x4000 ≤ a ∧ a < 0x6000)) s t := by
  refine portAgrees_of_registers_of_windows hs (execInj_keeps_inv hs h) ?_ ?_ <;> rw [execInj_writes h]
  · rintro n ⟨hstatus, hframe, -⟩
    have hcflen : n ≠ 0x0007 := by omega
    have hdrlen : n ≠ 0x0008 := by omega
    have hepos : n ≠ 0x0009 := by omega
    have hkind : n ≠ 0x000A := by omega
    simp only [registerRead, if_neg hstatus, if_neg hcflen, if_neg hdrlen, if_neg hepos, if_neg hkind]
    rfl
  · rintro w k hk ⟨-, -, hframe⟩
    cases w
    case cf => simp only [Window.base] at hframe; omega
    case dr => simp only [Window.base] at hframe; omega
    all_goals rfl

/-- Of the spec's state only `EF`, `CF`, `DR`, their tags, `EPOS` and `STATUS` differ. -/
abbrev OnlyFramesWritten (s t : State) : Prop :=
  t = { s with ef := t.ef, efk := t.efk, cf := t.cf, cfk := t.cfk, epos := t.epos, dr := t.dr, drk := t.drk,
               errc := t.errc, done := t.done, draws := t.draws }

theorem OnlyFramesWritten.portAgrees {s t : State} (h : OnlyFramesWritten s t) (hs : s.Inv) (ht : t.Inv) :
    PortAgrees (fun a => a ≠ 0x0001 ∧ ¬ (0x0006 ≤ a ∧ a ≤ 0x000A) ∧ ¬ (0x3000 ≤ a ∧ a < 0x6000)) s t := by
  refine portAgrees_of_registers_of_windows hs ht ?_ ?_ <;> rw [h]
  · rintro n ⟨hstatus, hframe, -⟩
    have heflen : n ≠ 0x0006 := by omega
    have hcflen : n ≠ 0x0007 := by omega
    have hdrlen : n ≠ 0x0008 := by omega
    have hepos : n ≠ 0x0009 := by omega
    have hkind : n ≠ 0x000A := by omega
    simp only [registerRead, if_neg hstatus, if_neg heflen, if_neg hcflen, if_neg hdrlen, if_neg hepos, if_neg hkind]
    rfl
  · rintro w k hk ⟨-, -, hframe⟩
    cases w
    case inp => rfl
    case wv => rfl
    all_goals simp only [Window.base] at hframe; omega

/-! ### The frame of each group -/

theorem exec_of_lencCommands {i : Instr} (hi : i ∈ lencCommands) (s : State) :
    ∃ tech, exec i s = execLenc tech s := by
  simp only [lencCommands, List.mem_cons, List.not_mem_nil, or_false] at hi
  rcases hi with rfl | rfl | rfl | rfl | rfl | rfl | rfl
  exacts [⟨0, rfl⟩, ⟨1, rfl⟩, ⟨2, rfl⟩, ⟨3, rfl⟩, ⟨4, rfl⟩, ⟨5, rfl⟩, ⟨6, rfl⟩]

theorem exec_of_decoders {i : Instr} (hi : i ∈ [.hcorC, .cdetC, .hcorE, .cdetE]) (s : State) :
    ∃ src meth, exec i s = execEcdec src meth s := by
  simp only [List.mem_cons, List.not_mem_nil, or_false] at hi
  rcases hi with rfl | rfl | rfl | rfl
  exacts [⟨0, 0, rfl⟩, ⟨0, 1, rfl⟩, ⟨1, 0, rfl⟩, ⟨1, 1, rfl⟩]

theorem exec_of_encoders_or_runs {i : Instr} (hi : i ∈ [.henc, .cenc, .ecrunH, .ecrunC]) (s : State) :
    (∃ meth, exec i s = execEcenc meth s) ∨ (i ∉ [.henc, .cenc] ∧ ∃ meth, exec i s = execEcrun meth s) := by
  simp only [List.mem_cons, List.not_mem_nil, or_false] at hi
  rcases hi with rfl | rfl | rfl | rfl
  exacts [.inl ⟨0, rfl⟩, .inl ⟨1, rfl⟩, .inr ⟨by decide, 0, rfl⟩, .inr ⟨by decide, 1, rfl⟩]

/-- Settles O31: only `WV` and `STATUS` are written (`execLenc_writes`). -/
theorem lencFrame : Obligations.LencFrame := by
  unfold Obligations.LencFrame
  intro i s t hs hi h
  obtain ⟨tech, e⟩ := exec_of_lencCommands hi s
  rw [e] at h
  exact ⟨execLenc_portAgrees hs h, by rw [execLenc_writes h]⟩

/-- Settles O39: only `DR`, its tag and `STATUS` are written (`execEcdec_writes`). -/
theorem decodersFrame : Obligations.DecodersFrame := by
  unfold Obligations.DecodersFrame
  intro i s t hs hi h
  obtain ⟨src, meth, e⟩ := exec_of_decoders hi s
  rw [e] at h
  exact ⟨execEcdec_portAgrees hs h, by rw [execEcdec_writes h]⟩

/-- Settles O47: an encode writes and empties as `execEcenc_writes` says, a run writes as `execEcrun_writes` says. -/
theorem encodersAndRunsFrame : Obligations.EncodersAndRunsFrame := by
  unfold Obligations.EncodersAndRunsFrame
  intro i s t hs hi h
  have hinv := exec_keeps_inv hs h
  obtain ⟨meth, e⟩ | ⟨hrun, meth, e⟩ := exec_of_encoders_or_runs hi s <;> rw [e] at h
  · have hw := execEcenc_writes h
    have hframe : OnlyFramesWritten s t := by rw [hw]
    refine ⟨hframe.portAgrees hs hinv, hframe, fun _ => ?_⟩
    rw [hw]
    exact ⟨rfl, rfl, rfl, rfl, rfl, rfl⟩
  · have hframe : OnlyFramesWritten s t := by rw [execEcrun_writes h]
    exact ⟨hframe.portAgrees hs hinv, hframe, fun henc => absurd henc hrun⟩

theorem countDraw_of_det {s : State} (h : s.det = true) : countDraw s = s := by
  simp only [countDraw, h, if_true]

/-- What `INJ` does depends on nothing that it writes. -/
theorem execInj_overwrites {s : State} (hdet : s.det = true) (cf : List Bit) (cfk : FrameKind) (epos : Nat)
    (dr : List Bit) (drk : ResultKind) (errc : ErrCode) (done : Bool) :
    execInj { s with cf := cf, cfk := cfk, epos := epos, dr := dr, drk := drk, errc := errc, done := done } =
      execInj s := by
  unfold execInj
  rw [countDraw_of_det hdet, countDraw_of_det (by exact hdet)]
  rfl

theorem execInj_draws_of_det {s t : State} (hdet : s.det = true) (h : execInj s = .next t) : t.draws = s.draws := by
  obtain ⟨-, e⟩ | ⟨-, -, e⟩ | ⟨-, -, e⟩ := execInj_cases s <;> rw [e] at h <;> cases h
  · rfl
  · simp [hdet]
  · simp [hdet]

theorem execInj_twice {s t : State} (hdet : s.det = true) (h : execInj s = .next t) : execInj t = .next t := by
  have e := execInj_writes h
  rw [execInj_draws_of_det hdet h] at e
  rw [← h, e]
  exact execInj_overwrites hdet ..

/-- Settles O52: `INJ` writes as `execInj_writes` says, and in deterministic mode nothing it writes matters to a second
one (`execInj_twice`). -/
theorem injFrame : Obligations.InjFrame := by
  unfold Obligations.InjFrame
  refine ⟨fun s t hs h => ⟨execInj_portAgrees hs h, ?_⟩, fun s t u hdet h h' => ?_⟩
  · rw [execInj_writes h]
  · exact Host.Outcome.next.inj (h'.symm.trans (execInj_twice hdet h))

end Sys2Proof.Machine
end

section
/-! PROOF. The statements of 40_line_encoder.md: that the input is validated whole (O21), the waveform of each technique (O22
to O28), what a command's results depend on (O29), and the properties of the family (O30). -/

namespace Sys2Proof.Machine

/-! ### Valid and invalid input -/

theorem validate_of_valid {s : State} (hv : ValidInput s) : validate s = .ok (inputBits s) := by
  obtain ⟨-, h⟩ | ⟨hn, -⟩ := validate_cases s
  · exact h
  · exact absurd hv hn

theorem validate_of_invalid {s : State} (hv : ¬ ValidInput s) : validate s = .error .invalidInput := by
  obtain ⟨hn, -⟩ | ⟨-, h⟩ := validate_cases s
  · exact absurd hn hv
  · exact h

theorem execLenc_of_valid {tech : BitVec 4} {s : State} {w : List Level} (hv : ValidInput s)
    (hw : lineEncode tech (inputBits s) = some w) :
    execLenc tech s = .next { s with wv := w, errc := .none, done := true } := by
  simp only [execLenc, validate_of_valid hv, hw]
  rfl

theorem execLenc_of_invalid {tech : BitVec 4} {s : State} (hv : ¬ ValidInput s) :
    execLenc tech s = .next { s with wv := [], errc := .invalidInput, done := true } := by
  simp only [execLenc, validate_of_invalid hv]
  rfl

theorem execEcenc_of_invalid {meth : BitVec 4} {s : State} (hv : ¬ ValidInput s) :
    execEcenc meth s = .next (failedEncode .invalidInput s) := by
  simp only [execEcenc, validate_of_invalid hv]
  rfl

theorem execEcrun_of_invalid {meth : BitVec 4} {s : State} (hv : ¬ ValidInput s) :
    execEcrun meth s = .next (failedEncode .invalidInput s) := by
  simp only [execEcrun, validate_of_invalid hv]
  rfl

/-- Settles O21: the two outcomes of `validate`, and the second one in each group of commands that reads `IN`. -/
theorem inputIsValidatedWhole : Obligations.InputIsValidatedWhole := by
  unfold Obligations.InputIsValidatedWhole
  refine ⟨fun s hv => ⟨validate_of_valid hv, length_inputBits s⟩, fun s => validate_of_invalid, fun s i hv hi => ?_⟩
  obtain hi | hi := List.mem_append.mp hi
  · obtain ⟨tech, e⟩ := exec_of_lencCommands hi s
    exact ⟨_, e.trans (execLenc_of_invalid hv), rfl⟩
  · obtain ⟨meth, e⟩ | ⟨-, meth, e⟩ := exec_of_encoders_or_runs hi s
    · exact ⟨_, e.trans (execEcenc_of_invalid hv), rfl⟩
    · exact ⟨_, e.trans (execEcrun_of_invalid hv), rfl⟩

/-! ### Running levels and counts of bits -/

@[simp] theorem negate_negate (l : Level) : negate (negate l) = l := by cases l <;> rfl

@[simp] theorem signOf_zero : signOf 0 = .pos := rfl

@[simp] theorem negate_signOf (m : Nat) : negate (signOf m) = signOf (m + 1) := by
  unfold signOf
  obtain h | h := Nat.mod_two_eq_zero_or_one m
  · rw [if_pos h, if_neg (by omega)]; rfl
  · rw [if_neg (by omega), if_pos (by omega)]; rfl

theorem signOf_ne_zero (m : Nat) : signOf m ≠ .zero := by
  unfold signOf
  split <;> decide

@[simp] theorem onesIn_zero (b : List Bit) : onesIn b 0 = 0 := rfl

@[simp] theorem onesIn_cons_succ (x : Bit) (b : List Bit) (k : Nat) :
    onesIn (x :: b) (k + 1) = onesIn b k + if x then 1 else 0 := by
  cases x <;> simp [onesIn]

/-- The 0-bits are the 1-bits of the complement. -/
theorem onesIn_map_not (b : List Bit) (k : Nat) : onesIn (b.map not) k = zerosIn b k := by
  induction b generalizing k with
  | nil => simp [onesIn, zerosIn]
  | cons x b ih =>
    cases k with
    | zero => rfl
    | succ k => rw [List.map_cons, onesIn_cons_succ, ih]; cases x <;> simp [zerosIn]

/-! ### The waveforms, sample by sample -/

theorem encNrzl_eq_map (b : List Bit) : encNrzl b = b.map fun x => if x then .pos else .neg := by
  induction b with
  | nil => rfl
  | cons x b ih => rw [encNrzl, ih, List.map_cons]

/-- A running level that was negated `m` times before the first bit is negated once more for each 1-bit. -/
theorem getElem?_encNrziFrom (b : List Bit) (m k : Nat) (hk : k < b.length) :
    (encNrziFrom (signOf m) b)[k]? = some (signOf (m + onesIn b (k + 1))) := by
  induction b generalizing m k with
  | nil => exact absurd hk (Nat.not_lt_zero k)
  | cons x b ih =>
    cases k with
    | zero => cases x <;> simp [encNrziFrom]
    | succ k =>
      have := ih (m + if x then 1 else 0) k (Nat.lt_of_succ_lt_succ hk)
      cases x <;> simpa [encNrziFrom, Nat.add_assoc, Nat.add_comm 1] using this

/-- A mark has the polarity of `+1` negated once for each mark before it. -/
theorem getElem?_encAmiFrom (b : List Bit) (m k : Nat) :
    (encAmiFrom (signOf m) b)[k]? = b[k]?.map fun x => if x then signOf (m + onesIn b k) else .zero := by
  induction b generalizing m k with
  | nil => rfl
  | cons x b ih =>
    cases k with
    | zero => cases x <;> simp [encAmiFrom]
    | succ k => cases x <;> simp [encAmiFrom, ih, Nat.add_assoc, Nat.add_comm 1]

/-- Pseudoternary is AMI of the complement, from every polarity. -/
theorem encPstFrom_eq (nx : Level) (b : List Bit) : encPstFrom nx b = encAmiFrom nx (b.map not) := by
  induction b generalizing nx with
  | nil => rfl
  | cons x b ih => cases x <;> simp [encPstFrom, encAmiFrom, ih]

/-! ### The techniques of two samples a bit -/

/-- Two samples for each level of `w`. -/
def samplePairs (f g : Level → Level) (w : List Level) : List Level := w.flatMap fun l => [f l, g l]

@[simp] theorem samplePairs_cons (f g : Level → Level) (l : Level) (w : List Level) :
    samplePairs f g (l :: w) = f l :: g l :: samplePairs f g w := rfl

theorem getElem?_samplePairs (f g : Level → Level) (w : List Level) (k : Nat) :
    (samplePairs f g w)[2 * k]? = w[k]?.map f ∧ (samplePairs f g w)[2 * k + 1]? = w[k]?.map g := by
  induction w generalizing k with
  | nil => exact ⟨rfl, rfl⟩
  | cons l w ih =>
    cases k with
    | zero => exact ⟨rfl, rfl⟩
    | succ k => simpa [Nat.mul_succ] using ih k

/-- RZ returns NRZ-L to 0 in the middle of each bit. -/
theorem encRz_eq (b : List Bit) : encRz b = samplePairs id (fun _ => .zero) (encNrzl b) := by
  induction b with
  | nil => rfl
  | cons x b ih => rw [encRz, encNrzl, samplePairs_cons, ih]; rfl

/-- Manchester negates NRZ-L in the middle of each bit. -/
theorem encMan_eq (b : List Bit) : encMan b = samplePairs id negate (encNrzl b) := by
  induction b with
  | nil => rfl
  | cons x b ih => rw [encMan, encNrzl, samplePairs_cons, ih]; cases x <;> rfl

/-- Differential Manchester arrives, at the end of each bit, at the level of NRZ-I of the complement, from its
negation. -/
theorem encDmanFrom_eq (lv : Level) (b : List Bit) :
    encDmanFrom lv b = samplePairs negate id (encNrziFrom lv (b.map not)) := by
  induction b generalizing lv with
  | nil => rfl
  | cons x b ih => cases x <;> simp [encDmanFrom, encNrziFrom, ih]

/-! ### The seven line-code commands -/

theorem encNrzl_inputBits {s : State} {k : Nat} (hk : k < s.ilen) :
    (encNrzl (inputBits s))[k]? = some (if s.inp.read k = 0x31#8 then .pos else .neg) := by
  simp [encNrzl_eq_map, inputBits_getElem? hk, inputBit]

/-- Settles O22, by `encNrzl_eq_map`. -/
theorem lencNrzlMeaning : Obligations.LencNrzlMeaning := by
  unfold Obligations.LencNrzlMeaning
  exact ⟨rfl, fun s hv => ⟨_, execLenc_of_valid (tech := 0) hv rfl, by simp, fun k => encNrzl_inputBits⟩,
    fun s => execLenc_of_invalid (tech := 0)⟩

/-- Settles O23, by `getElem?_encNrziFrom` from `+1`. -/
theorem lencNrziMeaning : Obligations.LencNrziMeaning := by
  unfold Obligations.LencNrziMeaning
  refine ⟨rfl, fun s hv => ⟨_, execLenc_of_valid (tech := 1) hv rfl, by simp [encNrzi], fun k hk => ?_⟩,
    fun s => execLenc_of_invalid (tech := 1)⟩
  simpa [encNrzi] using getElem?_encNrziFrom (inputBits s) 0 k (by simpa using hk)

/-- Settles O24: NRZ-L with a 0 after each sample. -/
theorem lencRzMeaning : Obligations.LencRzMeaning := by
  unfold Obligations.LencRzMeaning
  refine ⟨rfl, fun s hv => ⟨_, execLenc_of_valid (tech := 2) hv rfl, by simp, fun k hk => ?_⟩,
    fun s => execLenc_of_invalid (tech := 2)⟩
  obtain ⟨h0, h1⟩ := getElem?_samplePairs id (fun _ => .zero) (encNrzl (inputBits s)) k
  rw [encRz_eq, h0, h1, encNrzl_inputBits hk]
  exact ⟨rfl, rfl⟩

/-- Settles O25: NRZ-L with its negation after each sample. -/
theorem lencManMeaning : Obligations.LencManMeaning := by
  unfold Obligations.LencManMeaning
  refine ⟨rfl, fun s hv => ⟨_, execLenc_of_valid (tech := 3) hv rfl, by simp, fun k hk => ?_⟩,
    fun s => execLenc_of_invalid (tech := 3)⟩
  obtain ⟨h0, h1⟩ := getElem?_samplePairs id negate (encNrzl (inputBits s)) k
  rw [encMan_eq, h0, h1, encNrzl_inputBits hk]
  refine ⟨rfl, ?_⟩
  split <;> rfl

/-- Settles O26: NRZ-I of the complement, with its negation before each sample. -/
theorem lencDmanMeaning : Obligations.LencDmanMeaning := by
  unfold Obligations.LencDmanMeaning
  refine ⟨rfl, fun s hv => ⟨_, execLenc_of_valid (tech := 4) hv rfl, by simp [encDman], fun k hk => ?_⟩,
    fun s => execLenc_of_invalid (tech := 4)⟩
  obtain ⟨h0, h1⟩ := getElem?_samplePairs negate id (encNrziFrom .pos ((inputBits s).map not)) k
  have hlevel := getElem?_encNrziFrom ((inputBits s).map not) 0 k (by simpa using hk)
  rw [signOf_zero, Nat.zero_add, onesIn_map_not] at hlevel
  rw [encDman, encDmanFrom_eq, h0, h1, hlevel]
  exact ⟨rfl, rfl⟩

/-- Settles O27, by `getElem?_encAmiFrom` from `+1`. -/
theorem lencAmiMeaning : Obligations.LencAmiMeaning := by
  unfold Obligations.LencAmiMeaning
  refine ⟨rfl, fun s hv => ⟨_, execLenc_of_valid (tech := 5) hv rfl, by simp [encAmi], fun k hk => ?_⟩,
    fun s => execLenc_of_invalid (tech := 5)⟩
  have hmark := getElem?_encAmiFrom (inputBits s) 0 k
  rw [inputBits_getElem? hk] at hmark
  simpa [encAmi, inputBit] using hmark

/-- Settles O28: AMI of the complement (`encPstFrom_eq`), whose 1-bits are the 0-bits of the input. -/
theorem lencPstMeaning : Obligations.LencPstMeaning := by
  unfold Obligations.LencPstMeaning
  refine ⟨rfl, fun s hv => ⟨_, execLenc_of_valid (tech := 6) hv rfl, by simp [encPst], fun k hk => ?_⟩,
    fun s => execLenc_of_invalid (tech := 6), encPstFrom_eq .pos⟩
  have hmark := getElem?_encAmiFrom ((inputBits s).map not) 0 k
  rw [List.getElem?_map, inputBits_getElem? hk, onesIn_map_not] at hmark
  rw [encPst, encPstFrom_eq]
  simpa [inputBit] using hmark

/-! ### A command reads only its sources -/

/-- `Validate` reads `ILEN` and the cells below it. -/
theorem validate_congr {s s' : State} (hlen : s.ilen = s'.ilen)
    (hcells : ∀ k < s.ilen, s.inp.read k = s'.inp.read k) : validate s = validate s' := by
  have hbits : inputBits s = inputBits s' := by
    rw [inputBits, inputBits, ← hlen]
    refine List.map_congr_left fun k hk => ?_
    rw [inputBit, inputBit, hcells k (List.mem_range.mp hk)]
  have hvalid : ValidInput s ↔ ValidInput s' :=
    and_congr (by rw [hlen]) <| hlen ▸ forall₂_congr fun k hk => by rw [hcells k hk]
  by_cases hv : ValidInput s
  · rw [validate_of_valid hv, validate_of_valid (hvalid.mp hv), hbits]
  · rw [validate_of_invalid hv, validate_of_invalid (mt hvalid.mpr hv)]

theorem pickIndex_congr {s s' : State} (hdet : s.det = s'.det) (hridx : s.ridx = s'.ridx)
    (hdraws : s.draws = s'.draws) (n : Nat) : pickIndex n s = pickIndex n s' := by
  have hindex : indexSource n s = indexSource n s' := by rw [indexSource, indexSource, hdet, hridx, hdraws]
  rw [pickIndex, pickIndex, hindex]

/-- Both runs end, and `part` is the same of the two states they end in. -/
inductive SameResult {α : Type} (part : State → α) : Result → Result → Prop where
  /-- both runs end in a next state -/
  | next (t t' : State) (h : part t = part t') : SameResult part (.next t) (.next t')

theorem SameResult.part_eq {α : Type} {part : State → α} {r r' : Result} {t t' : State} (hr : SameResult part r r')
    (h : r = .next t) (h' : r' = .next t') : part t = part t' := by
  subst h h'
  cases hr with | next _ _ h => exact h

theorem execLenc_congr (tech : BitVec 4) {s s' : State} (hval : validate s = validate s') :
    SameResult (fun t => (t.wv, t.errc)) (execLenc tech s) (execLenc tech s') := by
  rw [execLenc, execLenc, ← hval]
  cases validate s with
  | error e => exact .next _ _ rfl
  | ok b =>
    dsimp only
    cases lineEncode tech b <;> exact .next _ _ rfl

theorem execEcenc_congr (meth : BitVec 4) {s s' : State} (hval : validate s = validate s') :
    SameResult (fun t => (t.ef, t.efk, t.errc)) (execEcenc meth s) (execEcenc meth s') := by
  rw [execEcenc, execEcenc, ← hval]
  cases validate s with
  | error e => exact .next _ _ rfl
  | ok d => cases methodOf meth.toNat <;> exact .next _ _ rfl

theorem execEcrun_congr (meth : BitVec 4) {s s' : State} (hval : validate s = validate s')
    (hindex : ∀ n, pickIndex n s = pickIndex n s') :
    SameResult (fun t => (t.ef, t.efk, t.cf, t.cfk, t.epos, t.dr, t.drk, t.errc))
      (execEcrun meth s) (execEcrun meth s') := by
  rw [execEcrun, execEcrun, ← hval]
  cases validate s with
  | error e => exact .next _ _ rfl
  | ok d =>
    cases methodOf meth.toNat with
    | none => exact .next _ _ rfl
    | some m =>
      dsimp only
      rw [← hindex]
      cases pickIndex (encodeFrame m d).length s with
      | error e => exact .next _ _ rfl
      | ok p =>
        dsimp only
        cases decodeFrame m (flipBit (encodeFrame m d) p) with
        | error e => exact .next _ _ rfl
        | ok r => cases r <;> exact .next _ _ rfl

theorem execInj_congr {s s' : State} (hef : s.ef = s'.ef) (hefk : s.efk = s'.efk)
    (hindex : ∀ n, pickIndex n s = pickIndex n s') :
    SameResult (fun t => (t.cf, t.cfk, t.epos, t.errc)) (execInj s) (execInj s') := by
  rw [execInj, execInj, ← hef, ← hefk, ← hindex]
  split
  · exact .next _ _ rfl
  · cases pickIndex s.ef.length s <;> exact .next _ _ rfl

theorem execEcdec_congr {src : BitVec 1} (meth : BitVec 3) {s s' : State}
    (hsrc : sourceFrame src s = sourceFrame src s') :
    SameResult (fun t => (t.dr, t.drk, t.errc)) (execEcdec src meth s) (execEcdec src meth s') := by
  rw [execEcdec, execEcdec, ← hsrc]
  obtain ⟨f, k⟩ := sourceFrame src s
  dsimp only
  split
  · exact .next _ _ rfl
  cases methodOf meth.toNat with
  | none => exact .next _ _ rfl
  | some m =>
    dsimp only
    split
    · exact .next _ _ rfl
    cases decodeFrame m f with
    | error e => exact .next _ _ rfl
    | ok r => cases r <;> exact .next _ _ rfl

/-- What a line-code word writes matters to no line-code word. -/
theorem execLenc_overwrites (tech : BitVec 4) (s : State) (w : List Level) (e : ErrCode) (d : Bool) :
    execLenc tech { s with wv := w, errc := e, done := d } = execLenc tech s := rfl

theorem execLenc_twice {tech : BitVec 4} {s t : State} (h : execLenc tech s = .next t) :
    execLenc tech t = .next t := by
  rw [← h, execLenc_writes h]
  exact execLenc_overwrites ..

theorem countDraw_status (s : State) (e : ErrCode) (d : Bool) :
    countDraw { s with errc := e, done := d } = { countDraw s with errc := e, done := d } := by
  unfold countDraw
  split <;> rfl

theorem succeed_writeResult_status (r : DecodeResult) (s : State) (e : ErrCode) (d : Bool) :
    succeed (writeResult r { s with errc := e, done := d }) = succeed (writeResult r s) := by
  cases r <;> rfl

theorem execEcdec_status (src : BitVec 1) (meth : BitVec 3) (s : State) (e : ErrCode) (d : Bool) :
    execEcdec src meth { s with errc := e, done := d } = execEcdec src meth s := by
  rw [execEcdec, execEcdec]
  simp only [succeed_writeResult_status]
  rfl

theorem execEcrun_status (meth : BitVec 4) (s : State) (e : ErrCode) (d : Bool) :
    execEcrun meth { s with errc := e, done := d } = execEcrun meth s := by
  have hresult (r : DecodeResult) (m : Method) (f : List Bit) (p : Nat) :
      succeed (writeResult r (writeCf m.kind (flipBit f p) p (writeEf m.kind f
        { countDraw s with errc := e, done := d }))) =
      succeed (writeResult r (writeCf m.kind (flipBit f p) p (writeEf m.kind f (countDraw s)))) :=
    succeed_writeResult_status r (writeCf m.kind (flipBit f p) p (writeEf m.kind f (countDraw s))) e d
  rw [execEcrun, execEcrun, countDraw_status]
  simp only [hresult]
  rfl

theorem execInj_status (s : State) (e : ErrCode) (d : Bool) :
    execInj { s with errc := e, done := d } = execInj s := by
  rw [execInj, execInj, countDraw_status]
  rfl

/-- No command reads `STATUS`: each writes it (R124). -/
theorem exec_status (i : Instr) (s : State) (e : ErrCode) (d : Bool) :
    exec i { s with errc := e, done := d } = exec i s := by
  cases i
  case ecrunH => exact execEcrun_status 0 s e d
  case ecrunC => exact execEcrun_status 1 s e d
  case inj => exact execInj_status s e d
  case hcorC => exact execEcdec_status 0 0 s e d
  case cdetC => exact execEcdec_status 0 1 s e d
  case hcorE => exact execEcdec_status 1 0 s e d
  case cdetE => exact execEcdec_status 1 1 s e d
  all_goals rfl

theorem sameResult_of_encoders {i : Instr} (hi : i ∈ [.henc, .cenc]) {s s' : State} (hval : validate s = validate s') :
    SameResult (fun t => (t.ef, t.efk, t.errc)) (exec i s) (exec i s') := by
  simp only [List.mem_cons, List.not_mem_nil, or_false] at hi
  rcases hi with rfl | rfl
  exacts [execEcenc_congr 0 hval, execEcenc_congr 1 hval]

theorem sameResult_of_runs {i : Instr} (hi : i ∈ [.ecrunH, .ecrunC]) {s s' : State} (hval : validate s = validate s')
    (hindex : ∀ n, pickIndex n s = pickIndex n s') :
    SameResult (fun t => (t.ef, t.efk, t.cf, t.cfk, t.epos, t.dr, t.drk, t.errc)) (exec i s) (exec i s') := by
  simp only [List.mem_cons, List.not_mem_nil, or_false] at hi
  rcases hi with rfl | rfl
  exacts [execEcrun_congr 0 hval hindex, execEcrun_congr 1 hval hindex]

theorem sameResult_of_cf_decoders {i : Instr} (hi : i ∈ [.hcorC, .cdetC]) {s s' : State} (hcf : s.cf = s'.cf)
    (hcfk : s.cfk = s'.cfk) : SameResult (fun t => (t.dr, t.drk, t.errc)) (exec i s) (exec i s') := by
  have hsrc : sourceFrame 0 s = sourceFrame 0 s' := congrArg₂ Prod.mk hcf hcfk
  simp only [List.mem_cons, List.not_mem_nil, or_false] at hi
  rcases hi with rfl | rfl
  exacts [execEcdec_congr 0 hsrc, execEcdec_congr 1 hsrc]

theorem sameResult_of_ef_decoders {i : Instr} (hi : i ∈ [.hcorE, .cdetE]) {s s' : State} (hef : s.ef = s'.ef)
    (hefk : s.efk = s'.efk) : SameResult (fun t => (t.dr, t.drk, t.errc)) (exec i s) (exec i s') := by
  have hsrc : sourceFrame 1 s = sourceFrame 1 s' := congrArg₂ Prod.mk hef hefk
  simp only [List.mem_cons, List.not_mem_nil, or_false] at hi
  rcases hi with rfl | rfl
  exacts [execEcdec_congr 0 hsrc, execEcdec_congr 1 hsrc]

/-- Settles O29: the results by the `_congr` lemma of each group, the repeated word by `execLenc_twice`, and `STATUS` by
`exec_status`. -/
theorem commandsReadOnlyTheirSources : Obligations.CommandsReadOnlyTheirSources := by
  unfold Obligations.CommandsReadOnlyTheirSources
  refine ⟨fun tech s s' t t' hlen hcells h h' => ?_, exec_status, fun i s s' t t' h h' => ⟨?_, ?_, ?_, ?_, ?_⟩⟩
  · obtain ⟨hwv, herrc⟩ := Prod.mk.inj ((execLenc_congr tech (validate_congr hlen hcells)).part_eq h h')
    exact ⟨hwv, herrc, fun u hu => Host.Outcome.next.inj (hu.symm.trans (execLenc_twice h))⟩
  · intro hi hlen hcells
    simpa using (sameResult_of_encoders hi (validate_congr hlen hcells)).part_eq h h'
  · intro hi hlen hcells hdet hridx hdraws
    simpa using (sameResult_of_runs hi (validate_congr hlen hcells) (pickIndex_congr hdet hridx hdraws)).part_eq h h'
  · rintro rfl hef hefk hdet hridx hdraws
    simpa using (execInj_congr hef hefk (pickIndex_congr hdet hridx hdraws)).part_eq h h'
  · intro hi hcf hcfk
    simpa using (sameResult_of_cf_decoders hi hcf hcfk).part_eq h h'
  · intro hi hef hefk
    simpa using (sameResult_of_ef_decoders hi hef hefk).part_eq h h'

/-! ### The properties of the family -/

theorem encNrzl_map_not (b : List Bit) : encNrzl (b.map not) = (encNrzl b).map negate := by
  induction b with
  | nil => rfl
  | cons x b ih => cases x <;> simp [encNrzl, ih, negate]

/-- The `k`-th mark of AMI, from a polarity that was negated `m` times. -/
theorem mark_of_encAmiFrom (b : List Bit) (m k : Nat) {l : Level}
    (h : ((encAmiFrom (signOf m) b).filter (· != .zero))[k]? = some l) : l = signOf (m + k) := by
  induction b generalizing m k with
  | nil => cases h
  | cons x b ih =>
    cases x with
    | false => exact ih m k h
    | true =>
      have hmark : (signOf m != .zero) = true := bne_iff_ne.mpr (signOf_ne_zero m)
      rw [encAmiFrom, if_pos rfl, List.filter_cons, if_pos hmark, negate_signOf] at h
      cases k with
      | zero => exact (Option.some.inj h).symm
      | succ k => rw [ih (m + 1) k h, Nat.add_right_comm, Nat.add_assoc]

/-- A technique that gives `n` samples gives them for every valid input, with no error. -/
theorem execLenc_wv_length {tech : BitVec 4} {s : State} {w : List Level} {n : Nat} (hv : ValidInput s)
    (hfit : n ≤ 2 * s.cfg.nmax) (hw : lineEncode tech (inputBits s) = some w) (hn : w.length = n) :
    ∃ t, execLenc tech s = .next t ∧ t.wv.length = n ∧ t.wv.length ≤ 2 * s.cfg.nmax :=
  ⟨_, execLenc_of_valid hv hw, hn, hn.trans_le hfit⟩

/-- Settles O30: the lengths by the `length_enc` lemmas, the alternation by `mark_of_encAmiFrom` from `+1`, and the errors
by `execLenc_cases`. -/
theorem encoderProperties : Obligations.EncoderProperties := by
  unfold Obligations.EncoderProperties
  refine ⟨fun s hv hn => ⟨fun i hi => ?_, fun i hi => ?_⟩, fun b k => ?_, fun b k l h => ?_, fun b k l h => ?_,
    fun tech s t h => ?_⟩
  · have hfit : s.ilen ≤ 2 * s.cfg.nmax := by omega
    simp only [List.mem_cons, List.not_mem_nil, or_false] at hi
    rcases hi with rfl | rfl | rfl | rfl
    · exact execLenc_wv_length (tech := 0) hv hfit rfl (by simp)
    · exact execLenc_wv_length (tech := 1) hv hfit rfl (by simp [encNrzi])
    · exact execLenc_wv_length (tech := 5) hv hfit rfl (by simp [encAmi])
    · exact execLenc_wv_length (tech := 6) hv hfit rfl (by simp [encPst])
  · have hfit : 2 * s.ilen ≤ 2 * s.cfg.nmax := by omega
    simp only [List.mem_cons, List.not_mem_nil, or_false] at hi
    rcases hi with rfl | rfl | rfl
    · exact execLenc_wv_length (tech := 2) hv hfit rfl (by simp)
    · exact execLenc_wv_length (tech := 3) hv hfit rfl (by simp)
    · exact execLenc_wv_length (tech := 4) hv hfit rfl (by simp [encDman])
  · rw [encNrzl_map_not, List.getElem?_map]
  · simpa using mark_of_encAmiFrom b 0 k h
  · rw [encPst, encPstFrom_eq] at h
    simpa using mark_of_encAmiFrom (b.map not) 0 k h
  · obtain ⟨-, w, -, e⟩ | ⟨-, -, e⟩ | ⟨-, e⟩ := execLenc_cases tech s <;> rw [e] at h <;> cases h
    · exact .inl rfl
    · exact .inr (.inr rfl)
    · exact .inr (.inl rfl)

end Sys2Proof.Machine
end


section
/-! PROOF. The statements of 41_hamming.md: the redundancy count (O32), the frame and its checks (O33, O34), the correction
of every single flip (O35), and the commands `HENC`, `HCOR.C` and `HCOR.E` (O36 to O38). -/

namespace Sys2Proof.Machine

/-! ### The redundancy count -/

/-- The candidates that are large enough are those from `RH(L)` on (R81). -/
theorem rh_le_iff {l m : Nat} : rh l ≤ m ↔ l + m + 1 ≤ 2 ^ m := by
  refine ⟨fun h => ?_, (rh_spec l).2 m⟩
  induction m, h using Nat.le_induction with
  | base => exact (rh_spec l).1
  | succ m _ ih => rw [pow_succ]; omega

theorem lt_rh_iff {l m : Nat} : m < rh l ↔ 2 ^ m < l + m + 1 := by
  rw [← Nat.not_le, rh_le_iff, Nat.not_le]

/-- A row of R81's table is decided by its two ends. -/
theorem rh_eq_succ {l m : Nat} (hlt : 2 ^ m < l + m + 1) (hle : l + (m + 1) + 1 ≤ 2 ^ (m + 1)) : rh l = m + 1 :=
  Nat.le_antisymm (rh_le_iff.mpr hle) (lt_rh_iff.mpr hlt)

/-- Settles O32: the count is the least by `lt_rh_iff`, and each row of the table is `rh_eq_succ` at its ends. -/
theorem redundancyCountIsLeast : Obligations.RedundancyCountIsLeast := by
  unfold Obligations.RedundancyCountIsLeast
  refine ⟨fun l => ⟨(rh_spec l).1, fun m => lt_rh_iff.mp⟩, fun l hl => lt_rh_iff.mpr (by omega), fun l l' => rh_mono,
    fun l => ⟨?_, ?_, ?_, ?_, ?_, ?_, ?_, ?_, ?_, ?_, ?_⟩⟩
  all_goals exact fun h => rh_eq_succ (by omega) (by omega)

/-! ### Checks, slots and the syndrome of any frame -/

/-- LC's block pattern (R85): from position `2^i` on, `2^i` positions covered and `2^i` not. -/
theorem covers_iff_block (i k : Nat) : covers i k = true ↔ 2 ^ i ≤ k ∧ (k - 2 ^ i) % 2 ^ (i + 1) < 2 ^ i := by
  have hpos : 0 < 2 ^ i := by positivity
  have hbit : covers i k = true ↔ k / 2 ^ i % 2 = 1 := by simp [covers, Nat.testBit_eq_decide_div_mod_eq]
  rw [hbit]
  by_cases hk : 2 ^ i ≤ k
  · obtain ⟨j, rfl⟩ := Nat.exists_eq_add_of_le hk
    have hlt := Nat.mod_lt j hpos
    rw [Nat.add_sub_cancel_left, Nat.add_div_left j hpos, pow_succ, Nat.mod_mul]
    obtain h | h := Nat.mod_two_eq_zero_or_one (j / 2 ^ i) <;> rw [h] <;> omega
  · simp [Nat.div_eq_of_lt (Nat.lt_of_not_le hk), hk]

theorem isSlot_iff {k : Nat} : isSlot k = true ↔ ∃ i, k = 2 ^ i := by
  refine ⟨fun h => ⟨k.log2, (two_pow_log2_of_isSlot h).symm⟩, ?_⟩
  rintro ⟨i, rfl⟩
  exact isSlot_two_pow i

/-- The bits of the syndrome are the checks of the powers of two up to the length (R86). -/
theorem testBit_hamSyndrome {f : List Bit} (hf : f.length ≠ 0) (i : Nat) :
    (hamSyndrome f).testBit i = (decide (2 ^ i ≤ f.length) && parityCheck i f) := by
  have hi : i < f.length.log2 + 1 ↔ 2 ^ i ≤ f.length := by rw [Nat.lt_succ_iff, Nat.le_log2 hf]
  rw [hamSyndrome, (sum_powers _ _).2 i, decide_eq_decide.mpr hi]

/-- Settles O34: `covers_iff_block`, `isSlot_iff`, and the syndrome as a sum of distinct powers of two. -/
theorem checksAndSyndromeOfAnyFrame : Obligations.ChecksAndSyndromeOfAnyFrame := by
  unfold Obligations.ChecksAndSyndromeOfAnyFrame
  exact ⟨covers_iff_block, fun k => isSlot_iff, fun f i hf =>
    ⟨testBit_hamSyndrome (Nat.ne_of_gt hf) i, (sum_powers (parityCheck · f) _).1⟩⟩

/-! ### The Hamming frame -/

/-- The slots of a frame of `L + RH(L)` positions are those of its `RH(L)` checks (R82). -/
theorem lt_rh_iff_two_pow_le {l i : Nat} : i < rh l ↔ 2 ^ i ≤ l + rh l := by
  refine ⟨fun hi => ?_, fun hi => (Nat.pow_lt_pow_iff_right (a := 2) (by omega)).mp ?_⟩
  · have := lt_rh_iff.mp hi
    omega
  · have := (rh_spec l).1
    omega

/-- The frame holds the data in order (R88). -/
theorem hamData_hamEncode (d : List Bit) : hamData (hamEncode d) = d := by
  have hcount := dataCount_one (n := d.length + rh d.length) fun i => lt_rh_iff_two_pow_le
  rw [hamEncode, hamData_foldl_fillSlot]
  exact hamDataFrom_placeData _ 1 d (by omega)

/-- A check whose power of two is beyond the frame covers none of it. -/
theorem parityCheck_beyond {f : List Bit} {i : Nat} (h : f.length < 2 ^ i) : parityCheck i f = false :=
  xorWhere_false _ f 1 fun _ _ hj => Nat.testBit_lt_two_pow (by omega)

/-- Every check over the frame is even, slot included (R84). -/
@[simp] theorem parityCheck_hamEncode (d : List Bit) (i : Nat) : parityCheck i (hamEncode d) = false := by
  rw [hamEncode, parityCheck_foldl_fillSlot _ _ fun j hj => by simpa using lt_rh_iff_two_pow_le.mp hj]
  split
  · rfl
  · next hi => exact parityCheck_beyond (by simpa using mt lt_rh_iff_two_pow_le.mpr hi)

/-- The XOR over a set of positions depends on the elements at these positions only. -/
theorem xorWhere_congr {p : Nat → Bool} {f g : List Bit} (hlen : f.length = g.length) (k : Nat)
    (h : ∀ e, p (k + e) = true → f.getD e false = g.getD e false) : xorWhere p k f = xorWhere p k g := by
  induction f generalizing g k with
  | nil => rw [List.length_eq_zero_iff.mp hlen.symm]
  | cons b f ih =>
    obtain _ | ⟨c, g⟩ := g
    · cases hlen
    · have htail := ih (g := g) (by simpa using hlen) (k + 1) fun e he => by
        simpa using h (e + 1) (by rwa [Nat.add_right_comm] at he)
      have hhead : (p k && b) = (p k && c) := by
        cases hp : p k with
        | false => rfl
        | true => simpa using h 0 hp
      rw [xorWhere_cons, xorWhere_cons, hhead, htail]

/-- Frames of one length with the same data agree at every position that is no slot. -/
theorem getD_eq_of_hamDataFrom_eq {f g : List Bit} (hlen : f.length = g.length) (k : Nat)
    (h : hamDataFrom k f = hamDataFrom k g) (e : Nat) (he : isSlot (k + e) = false) :
    f.getD e false = g.getD e false := by
  induction f generalizing g k e with
  | nil => rw [List.length_eq_zero_iff.mp hlen.symm]
  | cons b f ih =>
    obtain _ | ⟨c, g⟩ := g
    · cases hlen
    · have hcons : hamDataFrom (k + 1) f = hamDataFrom (k + 1) g ∧ (isSlot k = false → b = c) := by
        cases hk : isSlot k <;> simp_all [hamDataFrom]
      obtain ⟨htail, hhead⟩ := hcons
      cases e with
      | zero => exact hhead he
      | succ e =>
        simpa using ih (g := g) (by simpa using hlen) (k + 1) htail e (by rwa [Nat.add_right_comm])

/-- A slot is the XOR of the other positions of its check with the check itself (R84, R86). -/
theorem getD_slot_eq (f : List Bit) (i : Nat) : f.getD (2 ^ i - 1) false =
    xor (xorWhere (fun k => covers i k && k != 2 ^ i) 1 f) (parityCheck i f) := by
  have hexcept := xorWhere_except (covers i) (2 ^ i) f 1
  rw [covers_two_pow, decide_eq_true (Nat.one_le_two_pow), decide_eq_true rfl, Bool.true_and, Bool.true_and] at hexcept
  rw [hexcept, parityCheck, Bool.xor_assoc, Bool.xor_self, Bool.xor_false]

/-- A frame is determined by its length, its data and its checks: a check covers one slot only, its own. -/
theorem eq_of_hamData_of_parityCheck {f g : List Bit} (hlen : f.length = g.length) (hdata : hamData f = hamData g)
    (hcheck : ∀ i, parityCheck i f = parityCheck i g) : f = g := by
  have hnonslot := getD_eq_of_hamDataFrom_eq hlen 1 hdata
  have hslot (i : Nat) : f.getD (2 ^ i - 1) false = g.getD (2 ^ i - 1) false := by
    rw [getD_slot_eq, getD_slot_eq, hcheck i, xorWhere_congr hlen 1 fun e he => hnonslot e ?_]
    by_contra hs
    obtain ⟨j, hj⟩ := isSlot_iff.mp (Bool.eq_true_of_not_eq_false hs)
    simp [hj, covers_two_pow] at he
  refine List.ext_getElem hlen fun e hf hg => ?_
  have hgetD : f.getD e false = g.getD e false := by
    cases hs : isSlot (1 + e) with
    | false => exact hnonslot e hs
    | true =>
      obtain ⟨i, hi⟩ := isSlot_iff.mp hs
      rw [Nat.eq_sub_of_add_eq' hi]
      exact hslot i
  simpa [hf, hg] using hgetD

/-- Settles O33: the frame's length, data and checks, which determine it (`eq_of_hamData_of_parityCheck`). -/
theorem hammingFrameLayout : Obligations.HammingFrameLayout := by
  unfold Obligations.HammingFrameLayout
  refine fun d _ => ⟨length_hamEncode d, hamData_hamEncode d, parityCheck_hamEncode d, fun f hlen hdata hcheck => ?_⟩
  refine eq_of_hamData_of_parityCheck ?_ ?_ fun i => ?_
  · rw [hlen, length_hamEncode]
  · rw [hdata, hamData_hamEncode]
  · rw [hcheck, parityCheck_hamEncode]

/-! ### The correction of a single flip -/

@[simp] theorem flipBit_flipBit (f : List Bit) (e : Nat) : flipBit (flipBit f e) e = f := by
  induction f generalizing e with
  | nil => simp
  | cons b f ih => cases e <;> simp [ih]

/-- The syndrome of a codeword is 0 (R87). -/
theorem hamSyndrome_hamEncode (d : List Bit) : hamSyndrome (hamEncode d) = 0 := by
  by_cases hd : (hamEncode d).length = 0
  · rw [List.length_eq_zero_iff.mp hd]; rfl
  · exact Nat.eq_of_testBit_eq fun i => by simp [testBit_hamSyndrome hd]

theorem hamCorrect_hamEncode (d : List Bit) : hamCorrect (hamEncode d) = .ok (hamEncode d) :=
  if_pos (hamSyndrome_hamEncode d)

/-- The failing checks spell the position of the flipped bit (R93). -/
theorem hamSyndrome_flipBit_hamEncode {d : List Bit} {e : Nat} (he : e < (hamEncode d).length) :
    hamSyndrome (flipBit (hamEncode d) e) = e + 1 := by
  refine Nat.eq_of_testBit_eq fun i => ?_
  have hcheck : parityCheck i (flipBit (hamEncode d) e) = (e + 1).testBit i := by
    rw [parityCheck, xorWhere_flipBit _ _ _ _ he, ← parityCheck, parityCheck_hamEncode, Bool.xor_false, covers,
      Nat.add_comm]
  rw [testBit_hamSyndrome (by rw [length_flipBit]; omega), hcheck, length_flipBit]
  by_cases hi : 2 ^ i ≤ (hamEncode d).length
  · rw [decide_eq_true hi, Bool.true_and]
  · rw [Nat.testBit_lt_two_pow (by omega), Bool.and_false]

/-- Correction undoes a single flip of a codeword (R93). -/
theorem hamCorrect_flipBit_hamEncode {d : List Bit} {e : Nat} (he : e < (hamEncode d).length) :
    hamCorrect (flipBit (hamEncode d) e) = .ok (hamEncode d) := by
  rw [hamCorrect, hamSyndrome_flipBit_hamEncode he, if_neg (Nat.succ_ne_zero e),
    if_pos (by rwa [length_flipBit]), Nat.add_sub_cancel, flipBit_flipBit]

/-! ### The frames a state holds -/

/-- The frame in `EF` is a codeword and is returned as it is (R92). -/
theorem State.Inv.hamCorrect_ef {s : State} (hs : s.Inv) (hk : s.efk = .ham) : hamCorrect s.ef = .ok s.ef := by
  obtain ⟨d, -, -, hd⟩ := hs.efHam hk
  rw [hd, hamCorrect_hamEncode]

/-- The frame in `CF` is `EF` with one bit flipped and is corrected to it (R91). -/
theorem State.Inv.hamCorrect_cf {s : State} (hs : s.Inv) (hk : s.cfk = .ham) : hamCorrect s.cf = .ok s.ef := by
  obtain ⟨hkind, hlen, hpos, hflip⟩ := hs.cfFlip (by simp [hk])
  obtain ⟨d, -, -, hd⟩ := hs.efHam (hkind ▸ hk)
  rw [hlen, hd] at hpos
  rw [hflip, hd, hamCorrect_flipBit_hamEncode hpos]

/-! ### The groups `ECENC` and `ECDEC` at a given method and frame -/

theorem execEcenc_of_valid {meth : BitVec 4} {m : Method} {s : State} (hv : ValidInput s)
    (hm : methodOf meth.toNat = some m) :
    execEcenc meth s = .next { s with
      ef := encodeFrame m (inputBits s), efk := m.kind, cf := [], cfk := .none, epos := 0, dr := [], drk := .none,
      errc := .none, done := true } := by
  simp only [execEcenc, validate_of_valid hv, hm]
  rfl

theorem sourceFrame_cf {s : State} {k : FrameKind} (hk : s.cfk = k) : sourceFrame 0 s = (s.cf, k) := by
  rw [← hk]; rfl

theorem sourceFrame_ef {s : State} {k : FrameKind} (hk : s.efk = k) : sourceFrame 1 s = (s.ef, k) := by
  rw [← hk]; rfl

theorem execEcdec_of_no_frame {src : BitVec 1} {meth : BitVec 3} {s : State} {f : List Bit}
    (hsrc : sourceFrame src s = (f, .none)) : execEcdec src meth s = .next (failedDecode .invalidInput s) := by
  simp only [execEcdec, hsrc]
  rfl

theorem execEcdec_of_other_kind {src : BitVec 1} {meth : BitVec 3} {m : Method} {s : State} {f : List Bit}
    {k : FrameKind} (hsrc : sourceFrame src s = (f, k)) (hm : methodOf meth.toNat = some m) (hk : k ≠ .none)
    (hkm : k ≠ m.kind) : execEcdec src meth s = .next (failedDecode .kindMismatch s) := by
  simp only [execEcdec, hsrc, if_neg hk, hm, if_pos hkm]
  rfl

theorem execEcdec_of_decoded {src : BitVec 1} {meth : BitVec 3} {m : Method} {s : State} {f : List Bit}
    {r : DecodeResult} (hsrc : sourceFrame src s = (f, m.kind)) (hm : methodOf meth.toNat = some m)
    (hr : decodeFrame m f = .ok r) : execEcdec src meth s = .next (setStatus .none (writeResult r s)) := by
  have hk : m.kind ≠ .none := by cases m <;> decide
  simp only [execEcdec, hsrc, if_neg hk, hm, ne_eq, not_true_eq_false, if_false, hr]
  rfl

theorem decodeFrame_ham {f g : List Bit} (h : hamCorrect f = .ok g) : decodeFrame .ham f = .ok (.frame g) := by
  simp only [decodeFrame, h]

/-! ### The commands `HENC`, `HCOR.C`, `HCOR.E` and `ECRUN.H` -/

theorem exec_henc (s : State) : exec .henc s = execEcenc 0 s := rfl

theorem exec_hcorC (s : State) : exec .hcorC s = execEcdec 0 0 s := rfl

theorem exec_hcorE (s : State) : exec .hcorE s = execEcdec 1 0 s := rfl

theorem exec_ecrunH (s : State) : exec .ecrunH s = execEcrun 0 s := rfl

/-- Settles O36: the valid and the invalid input of group `ECENC`, and `length_encodeFrame_le`. -/
theorem hencMeaning : Obligations.HencMeaning := by
  unfold Obligations.HencMeaning
  refine ⟨rfl, fun s hv => ⟨?_, fun hn => ?_⟩, fun s hv => ?_⟩
  · exact (exec_henc s).trans (execEcenc_of_valid (m := .ham) hv rfl)
  · exact length_encodeFrame_le .ham (by rwa [length_inputBits])
  · exact (exec_henc s).trans (execEcenc_of_invalid hv)

/-- Settles O37: `CF` is corrected to `EF` (`State.Inv.hamCorrect_cf`). -/
theorem hcorCMeaning : Obligations.HcorCMeaning := by
  unfold Obligations.HcorCMeaning
  refine ⟨rfl, fun s hs hk => ?_, fun s hk => ?_, fun s hk => ?_⟩ <;> rw [exec_hcorC]
  · exact execEcdec_of_decoded (m := .ham) (sourceFrame_cf hk) rfl (decodeFrame_ham (hs.hamCorrect_cf hk))
  · exact execEcdec_of_no_frame (sourceFrame_cf hk)
  · exact execEcdec_of_other_kind (m := .ham) (sourceFrame_cf hk) rfl nofun nofun

/-- Settles O38: `EF` is a codeword and is returned (`State.Inv.hamCorrect_ef`). -/
theorem hcorEMeaning : Obligations.HcorEMeaning := by
  unfold Obligations.HcorEMeaning
  refine ⟨rfl, fun s hs hk => ?_, fun s hk => ?_, fun s hk => ?_⟩ <;> rw [exec_hcorE]
  · exact execEcdec_of_decoded (m := .ham) (sourceFrame_ef hk) rfl (decodeFrame_ham (hs.hamCorrect_ef hk))
  · exact execEcdec_of_no_frame (sourceFrame_ef hk)
  · exact execEcdec_of_other_kind (m := .ham) (sourceFrame_ef hk) rfl nofun nofun

/-! ### No command reports `SyndromeRange` -/

/-- The CRC-8 detector has no syndrome (R96). -/
theorem crcDetect_ne_syndromeRange (f : List Bit) : crcDetect f ≠ .error .syndromeRange := by
  obtain ⟨-, e⟩ | ⟨-, e⟩ | ⟨-, e⟩ := crcDetect_cases f <;> rw [e] <;> simp

theorem decodeFrame_flipBit_ne_syndromeRange {m : Method} {d : List Bit} {p : Nat}
    (hp : p < (encodeFrame m d).length) : decodeFrame m (flipBit (encodeFrame m d) p) ≠ .error .syndromeRange := by
  cases m with
  | ham => simp [encodeFrame, decodeFrame_ham (hamCorrect_flipBit_hamEncode hp)]
  | crc => exact crcDetect_ne_syndromeRange _

theorem State.Inv.decodeFrame_ne_syndromeRange {s : State} (hs : s.Inv) {src : BitVec 1} {m : Method}
    (hk : (sourceFrame src s).2 = m.kind) : decodeFrame m (sourceFrame src s).1 ≠ .error .syndromeRange := by
  cases m with
  | crc => exact crcDetect_ne_syndromeRange _
  | ham =>
    obtain e | e := sourceFrame_cases src s <;> rw [e] at hk ⊢
    · simp [decodeFrame_ham (hs.hamCorrect_cf hk)]
    · simp [decodeFrame_ham (hs.hamCorrect_ef hk)]

theorem execLenc_ne_syndromeRange {tech : BitVec 4} {s t : State} (h : execLenc tech s = .next t) :
    t.errc ≠ .syndromeRange := by
  obtain ⟨-, w, -, e⟩ | ⟨-, -, e⟩ | ⟨-, e⟩ := execLenc_cases tech s <;> rw [e] at h <;> cases h <;> simp

theorem execEcenc_ne_syndromeRange {meth : BitVec 4} {s t : State} (h : execEcenc meth s = .next t) :
    t.errc ≠ .syndromeRange := by
  obtain ⟨-, m, -, e⟩ | ⟨-, -, e⟩ | ⟨-, e⟩ := execEcenc_cases meth s <;> rw [e] at h <;> cases h <;> simp

theorem execInj_ne_syndromeRange {s t : State} (h : execInj s = .next t) : t.errc ≠ .syndromeRange := by
  obtain ⟨-, e⟩ | ⟨-, -, e⟩ | ⟨-, -, e⟩ := execInj_cases s <;> rw [e] at h <;> cases h <;> simp

/-- A decoder reports the code only where the codec does, and the codec does not on a frame of the block. -/
theorem execEcdec_ne_syndromeRange {src : BitVec 1} {meth : BitVec 3} {s t : State} (hs : s.Inv)
    (h : execEcdec src meth s = .next t) : t.errc ≠ .syndromeRange := by
  obtain ⟨-, e⟩ | ⟨-, -, e⟩ | ⟨-, m, -, ⟨-, e⟩ | ⟨hk, c, hc, e⟩ | ⟨-, r, -, e⟩⟩ :=
    execEcdec_cases src meth s (f := (sourceFrame src s).1) (k := (sourceFrame src s).2) rfl <;>
    rw [e] at h <;> cases h
  case inr.inr.inr.inl => exact fun heq => hs.decodeFrame_ne_syndromeRange hk (by rw [hc]; exact congrArg _ heq)
  all_goals simp

/-- A run decodes its own frame with one bit flipped, so the codec does not report the code. -/
theorem execEcrun_ne_syndromeRange {meth : BitVec 4} {s t : State} (h : execEcrun meth s = .next t) :
    t.errc ≠ .syndromeRange := by
  obtain ⟨-, e⟩ | ⟨-, -, e⟩ | ⟨-, m, f, p, -, rfl, -, ⟨-, e⟩ | ⟨hp, c, hc, e⟩ | ⟨-, r, -, e⟩⟩ :=
    execEcrun_cases meth s <;> rw [e] at h <;> cases h
  case inr.inr.inr.inl => exact fun heq => decodeFrame_flipBit_ne_syndromeRange hp (by rw [hc]; exact congrArg _ heq)
  all_goals simp

theorem exec_ne_syndromeRange {i : Instr} {s t : State} (hs : s.Inv) (h : exec i s = .next t) :
    t.errc ≠ .syndromeRange := by
  obtain ⟨-, e⟩ | ⟨-, tech, e⟩ | ⟨-, meth, e⟩ | ⟨-, meth, e⟩ | ⟨-, src, meth, e⟩ | ⟨-, e⟩ := exec_by_group i s <;>
    rw [e] at h
  · cases h; simp
  · exact execLenc_ne_syndromeRange h
  · exact execEcrun_ne_syndromeRange h
  · exact execEcenc_ne_syndromeRange h
  · exact execEcdec_ne_syndromeRange hs h
  · exact execInj_ne_syndromeRange h

/-! ### The commands give back `EF` -/

/-- A successful `HCOR.C` had a Hamming frame to correct (R91). -/
theorem exec_hcorC_dr {s t : State} (hs : s.Inv) (h : exec .hcorC s = .next t) (he : t.errc = .none) : t.dr = s.ef := by
  obtain ⟨-, hham, hnone, hcrc⟩ := hcorCMeaning
  cases hk : s.cfk with
  | none => rw [hnone s hk] at h; cases h; cases he
  | ham => rw [hham s hs hk] at h; cases h; rfl
  | crc => rw [hcrc s hk] at h; cases h; cases he

/-- A successful `ECRUN.H` decodes the frame it built, with one bit flipped (R106). -/
theorem exec_ecrunH_dr {s t : State} (h : exec .ecrunH s = .next t) (he : t.errc = .none) : t.dr = t.ef := by
  rw [exec_ecrunH] at h
  obtain ⟨-, e⟩ | ⟨-, -, e⟩ | ⟨-, m, f, p, hm, rfl, -, hrun⟩ := execEcrun_cases 0 s
  · rw [e] at h; cases h; cases he
  · rw [e] at h; cases h; cases he
  · cases hm
    have hdec (hp : p < (hamEncode (inputBits s)).length) := decodeFrame_ham (hamCorrect_flipBit_hamEncode hp)
    obtain ⟨-, e⟩ | ⟨hp, c, hc, -⟩ | ⟨hp, r, hr, e⟩ := hrun
    · rw [e] at h; cases h; cases he
    · cases (hdec hp).symm.trans hc
    · cases (hdec hp).symm.trans hr
      rw [e] at h; cases h; rfl

/-- Settles O35: the flip is located and corrected (`hamCorrect_flipBit_hamEncode`), so `HCOR.C` and `ECRUN.H` give back
`EF` and no decoder meets a frame whose syndrome is out of range. -/
theorem hammingCorrectsEverySingleFlip : Obligations.HammingCorrectsEverySingleFlip := by
  unfold Obligations.HammingCorrectsEverySingleFlip
  exact ⟨fun d e _ he => ⟨hamSyndrome_flipBit_hamEncode he, hamCorrect_flipBit_hamEncode he, hamData_hamEncode d⟩,
    fun s t => exec_hcorC_dr, fun s t _ => exec_ecrunH_dr, fun i s t => exec_ne_syndromeRange⟩

end Sys2Proof.Machine
end

section
/-! PROOF. The statements of 42_crc8.md: the checksum (O40), the frame (O41), the detector (O42), the detection of every
single flip (O43), and the commands `CENC`, `CDET.C` and `CDET.E` (O44 to O46). -/

namespace Sys2Proof.Machine

/-! ### The checksum -/

/-- The register over two strings of one length at once, from any start (R97). -/
theorem foldl_crcBit_zipWith_xor {a b : List Bit} (hlen : a.length = b.length) (r q : BitVec 8) :
    (List.zipWith xor a b).foldl crcBit (r ^^^ q) = a.foldl crcBit r ^^^ b.foldl crcBit q := by
  induction a generalizing b r q with
  | nil => rw [List.length_eq_zero_iff.mp hlen.symm]; rfl
  | cons x a ih =>
    obtain _ | ⟨y, b⟩ := b
    · cases hlen
    · simpa [crcBit_xor] using ih (b := b) (by simpa using hlen) (crcBit r x) (crcBit q y)

/-- A leading zero leaves the register at its start value (R94). -/
theorem crc8_false_cons (d : List Bit) : crc8 (false :: d) = crc8 d := rfl

theorem crc8_replicate_false (n : Nat) : crc8 (List.replicate n false) = 0x00#8 := by
  induction n with
  | zero => rfl
  | succ n ih => rw [List.replicate_succ, crc8_false_cons, ih]

/-- Settles O40: a zero keeps the start value (`crc8_false_cons`), and a step of the register is linear
(`foldl_crcBit_zipWith_xor`). -/
theorem checksumIsLinear : Obligations.ChecksumIsLinear := by
  unfold Obligations.ChecksumIsLinear
  exact ⟨rfl, rfl, crc8_false_cons, crc8_replicate_false, fun a b hlen => foldl_crcBit_zipWith_xor hlen 0x00#8 0x00#8⟩

/-! ### The frame -/

theorem byteBits_getElem? (r : BitVec 8) {j : Nat} (hj : j < 8) : (byteBits r)[j]? = some (r.getLsbD (7 - j)) := by
  interval_cases j <;> rfl

theorem byteBits_injective {r q : BitVec 8} (h : byteBits r = byteBits q) : r = q := by
  have hnat := congrArg bitsNat h
  rwa [bitsNat_byteBits, bitsNat_byteBits, ← BitVec.toNat_eq] at hnat

/-- Settles O41: the data stand in front, and the checksum's bits are those of `byteBits_getElem?`. -/
theorem crcFrameLayout : Obligations.CrcFrameLayout := by
  unfold Obligations.CrcFrameLayout
  refine fun d => ⟨length_crcEncode d, List.take_left, fun j hj => ?_⟩
  rw [crcEncode, List.getElem?_append_right (Nat.le_add_right ..), Nat.add_sub_cancel_left, byteBits_getElem? _ hj]

/-! ### The detector -/

/-- A string is a frame exactly when its last eight bits are the checksum of the others. -/
theorem append_eq_crcEncode_iff {c d d' : List Bit} (hc : c.length = 8) :
    d ++ c = crcEncode d' ↔ d = d' ∧ c = byteBits (crc8 d) := by
  refine ⟨fun h => ?_, fun ⟨hd, hc⟩ => by rw [← hd, hc, crcEncode]⟩
  obtain ⟨rfl, hbits⟩ := List.append_inj' h hc
  exact ⟨rfl, hbits⟩

/-- The detector compares the last eight bits with the checksum of the others (R96). -/
theorem crcDetect_append {d c : List Bit} (hd : 1 ≤ d.length) (hc : c.length = 8) :
    crcDetect (d ++ c) = if c = byteBits (crc8 d) then .ok (.data d) else .ok .detectionFailure := by
  have hlen : (d ++ c).length - 8 = d.length := by simp [hc]
  have hcmp : (crc8 d).toNat = bitsNat c ↔ c = byteBits (crc8 d) :=
    ⟨fun h => (byteBits_of_bitsNat hc h).symm, fun h => by rw [h, bitsNat_byteBits]⟩
  rw [crcDetect, if_neg (by rw [List.length_append]; omega), hlen, List.take_left, List.drop_left]
  simp only [hcmp]

theorem crcDetect_crcEncode {d : List Bit} (hd : 1 ≤ d.length) : crcDetect (crcEncode d) = .ok (.data d) := by
  rw [crcEncode, crcDetect_append hd rfl, if_pos rfl]

/-- A frame that the generator does not build is refused (R96). -/
theorem crcDetect_of_not_frame {f : List Bit} (hlen : 8 < f.length) (hf : ∀ d, f ≠ crcEncode d) :
    crcDetect f = .ok .detectionFailure := by
  obtain ⟨d, c, rfl, hc⟩ : ∃ d c, f = d ++ c ∧ c.length = 8 :=
    ⟨f.take (f.length - 8), f.drop (f.length - 8), (List.take_append_drop ..).symm, by simp; omega⟩
  rw [List.length_append] at hlen
  rw [crcDetect_append (by omega) hc, if_neg fun h => hf d ((append_eq_crcEncode_iff hc).mpr ⟨rfl, h⟩)]

/-- The outcomes of the detector, by what the generator builds. -/
theorem crcDetect_frame_cases (f : List Bit) :
    (f.length ≤ 8 ∧ crcDetect f = .error .invalidInput) ∨
    (∃ d, 1 ≤ d.length ∧ f = crcEncode d ∧ crcDetect f = .ok (.data d)) ∨
    (8 < f.length ∧ (∀ d, f ≠ crcEncode d) ∧ crcDetect f = .ok .detectionFailure) := by
  by_cases hle : f.length ≤ 8
  · exact .inl ⟨hle, if_pos hle⟩
  · have hlt : 8 < f.length := Nat.lt_of_not_le hle
    by_cases hf : ∃ d, f = crcEncode d
    · obtain ⟨d, rfl⟩ := hf
      have hd : 1 ≤ d.length := by rw [length_crcEncode] at hlt; omega
      exact .inr (.inl ⟨d, hd, rfl, crcDetect_crcEncode hd⟩)
    · have hf' := not_exists.mp hf
      exact .inr (.inr ⟨hlt, hf', crcDetect_of_not_frame hlt hf'⟩)

theorem crcDetect_eq_data_iff {f d : List Bit} :
    crcDetect f = .ok (.data d) ↔ 1 ≤ d.length ∧ f = crcEncode d := by
  refine ⟨fun h => ?_, fun ⟨hd, hf⟩ => hf ▸ crcDetect_crcEncode hd⟩
  obtain ⟨-, e⟩ | ⟨d', hd', hf, e⟩ | ⟨-, -, e⟩ := crcDetect_frame_cases f <;> rw [e] at h <;> cases h
  exact ⟨hd', hf⟩

theorem crcDetect_eq_error_iff {f : List Bit} {c : ErrCode} :
    crcDetect f = .error c ↔ f.length ≤ 8 ∧ c = .invalidInput := by
  refine ⟨fun h => ?_, fun ⟨hle, hc⟩ => hc ▸ if_pos hle⟩
  obtain ⟨hle, e⟩ | ⟨d, -, -, e⟩ | ⟨-, -, e⟩ := crcDetect_frame_cases f <;> rw [e] at h <;> cases h
  exact ⟨hle, rfl⟩

theorem crcDetect_eq_detectionFailure_iff {f : List Bit} :
    crcDetect f = .ok .detectionFailure ↔ 8 < f.length ∧ ∀ d, f ≠ crcEncode d := by
  refine ⟨fun h => ?_, fun ⟨hlt, hf⟩ => crcDetect_of_not_frame hlt hf⟩
  obtain ⟨-, e⟩ | ⟨d, -, -, e⟩ | ⟨hlt, hf, -⟩ := crcDetect_frame_cases f
  · cases e.symm.trans h
  · cases e.symm.trans h
  · exact ⟨hlt, hf⟩

/-- Settles O42: one `iff` per outcome, each from `crcDetect_frame_cases`. -/
theorem detectorAcceptsExactlyCrcFrames : Obligations.DetectorAcceptsExactlyCrcFrames := by
  unfold Obligations.DetectorAcceptsExactlyCrcFrames
  exact fun f => ⟨fun d => crcDetect_eq_data_iff, fun e => crcDetect_eq_error_iff, crcDetect_eq_detectionFailure_iff⟩

/-! ### The detection of a single flip -/

theorem flipBit_append_of_lt {f g : List Bit} {e : Nat} (h : e < f.length) : flipBit (f ++ g) e = flipBit f e ++ g := by
  induction f generalizing e with
  | nil => cases h
  | cons b f ih =>
    cases e with
    | zero => rfl
    | succ e => simpa using ih (by simpa using h)

theorem flipBit_append_length_add (f g : List Bit) (e : Nat) :
    flipBit (f ++ g) (f.length + e) = f ++ flipBit g e := by
  induction f with
  | nil => simp
  | cons b f ih => simpa [Nat.add_right_comm] using ih

theorem flipBit_ne {f : List Bit} {e : Nat} (h : e < f.length) : flipBit f e ≠ f := by
  intro heq
  have := congrArg (·[e]?) heq
  simp [flipBit, h] at this

/-- No frame is another one with one bit flipped: a flip in the data changes the checksum, and a flip in the checksum
leaves the data (R97). -/
theorem flipBit_crcEncode_ne {d : List Bit} {e : Nat} (he : e < (crcEncode d).length) (d' : List Bit) :
    flipBit (crcEncode d) e ≠ crcEncode d' := by
  intro heq
  rw [length_crcEncode] at he
  rw [crcEncode] at heq
  obtain hlt | hle := Nat.lt_or_ge e d.length
  · rw [flipBit_append_of_lt hlt, append_eq_crcEncode_iff rfl] at heq
    obtain ⟨-, hbits⟩ := heq
    exact foldl_crcBit_flipBit d 0x00#8 e hlt (byteBits_injective hbits).symm
  · obtain ⟨j, rfl⟩ := Nat.exists_eq_add_of_le hle
    rw [flipBit_append_length_add, append_eq_crcEncode_iff (length_flipBit ..)] at heq
    obtain ⟨-, hbits⟩ := heq
    exact flipBit_ne (by rw [length_byteBits]; omega) hbits

theorem crcDetect_flipBit_crcEncode {d : List Bit} {e : Nat} (hd : 1 ≤ d.length) (he : e < (crcEncode d).length) :
    crcDetect (flipBit (crcEncode d) e) = .ok .detectionFailure := by
  refine crcDetect_of_not_frame ?_ (flipBit_crcEncode_ne he)
  rw [length_flipBit, length_crcEncode]
  omega

/-! ### The frames a state holds -/

/-- The frame in `CF` is `EF` with one bit flipped and is refused (R99). -/
theorem State.Inv.crcDetect_cf {s : State} (hs : s.Inv) (hk : s.cfk = .crc) :
    crcDetect s.cf = .ok .detectionFailure := by
  obtain ⟨hkind, hlen, hpos, hflip⟩ := hs.cfFlip (by simp [hk])
  obtain ⟨d, hd, -, hef⟩ := hs.efCrc (hkind ▸ hk)
  rw [hlen, hef] at hpos
  rw [hflip, hef, crcDetect_flipBit_crcEncode hd hpos]

/-! ### The commands `CENC`, `CDET.C`, `CDET.E` and `ECRUN.C` -/

theorem exec_cenc (s : State) : exec .cenc s = execEcenc 1 s := rfl

theorem exec_cdetC (s : State) : exec .cdetC s = execEcdec 0 1 s := rfl

theorem exec_cdetE (s : State) : exec .cdetE s = execEcdec 1 1 s := rfl

theorem exec_ecrunC (s : State) : exec .ecrunC s = execEcrun 1 s := rfl

/-- Settles O44: the valid and the invalid input of group `ECENC`, and `length_encodeFrame_le`. -/
theorem cencMeaning : Obligations.CencMeaning := by
  unfold Obligations.CencMeaning
  refine ⟨rfl, fun s hv => ⟨?_, ?_, fun hn => ?_⟩, fun s hv => ?_⟩
  · exact (exec_cenc s).trans (execEcenc_of_valid (m := .crc) hv rfl)
  · rw [length_crcEncode, length_inputBits]
  · exact length_encodeFrame_le .crc (by rwa [length_inputBits])
  · exact (exec_cenc s).trans (execEcenc_of_invalid hv)

/-- Settles O45: the frame in `CF` is refused (`State.Inv.crcDetect_cf`). -/
theorem cdetCMeaning : Obligations.CdetCMeaning := by
  unfold Obligations.CdetCMeaning
  refine ⟨rfl, fun s hs hk => ?_, fun s hk => ?_, fun s hk => ?_⟩ <;> rw [exec_cdetC]
  · exact execEcdec_of_decoded (m := .crc) (sourceFrame_cf hk) rfl (hs.crcDetect_cf hk)
  · exact execEcdec_of_no_frame (sourceFrame_cf hk)
  · exact execEcdec_of_other_kind (m := .crc) (sourceFrame_cf hk) rfl nofun nofun

/-- Settles O46: `EF` is a frame of some data (R31), and the detector gives them back (`crcDetect_crcEncode`). -/
theorem cdetEMeaning : Obligations.CdetEMeaning := by
  unfold Obligations.CdetEMeaning
  refine ⟨rfl, fun s hs hk => ?_, fun s hk => ?_, fun s hk => ?_⟩
  · obtain ⟨d, hd, -, hef⟩ := hs.efCrc hk
    have hdec : crcDetect s.ef = .ok (.data d) := crcDetect_eq_data_iff.mpr ⟨hd, hef⟩
    refine ⟨d, ?_, hef, by simp [hef], hd⟩
    exact (exec_cdetE s).trans (execEcdec_of_decoded (m := .crc) (sourceFrame_ef hk) rfl hdec)
  · exact (exec_cdetE s).trans (execEcdec_of_no_frame (sourceFrame_ef hk))
  · exact (exec_cdetE s).trans (execEcdec_of_other_kind (m := .crc) (sourceFrame_ef hk) rfl nofun nofun)

/-- A successful `CDET.C` had a CRC frame to check (R99). -/
theorem exec_cdetC_drk {s t : State} (hs : s.Inv) (h : exec .cdetC s = .next t) (he : t.errc = .none) :
    t.drk = .detfail := by
  obtain ⟨-, hcrc, hnone, hham⟩ := cdetCMeaning
  cases hk : s.cfk with
  | none => rw [hnone s hk] at h; cases h; cases he
  | ham => rw [hham s hk] at h; cases h; cases he
  | crc => rw [hcrc s hs hk] at h; cases h; rfl

/-- A successful `ECRUN.C` checks the frame it built, with one bit flipped (R107). -/
theorem exec_ecrunC_drk {s t : State} (h : exec .ecrunC s = .next t) (he : t.errc = .none) : t.drk = .detfail := by
  rw [exec_ecrunC] at h
  obtain ⟨-, e⟩ | ⟨-, -, e⟩ | ⟨hv, m, f, p, hm, rfl, -, hrun⟩ := execEcrun_cases 1 s
  · rw [e] at h; cases h; cases he
  · rw [e] at h; cases h; cases he
  · cases hm
    have hdec (hp : p < (crcEncode (inputBits s)).length) := crcDetect_flipBit_crcEncode hv.one_le_length hp
    obtain ⟨-, e⟩ | ⟨hp, c, hc, -⟩ | ⟨hp, r, hr, e⟩ := hrun
    · rw [e] at h; cases h; cases he
    · cases (hdec hp).symm.trans hc
    · cases (hdec hp).symm.trans hr
      rw [e] at h; cases h; rfl

/-- Settles O43: the detector gives back the data of a frame (`crcDetect_crcEncode`) and refuses it with a bit flipped
(`crcDetect_flipBit_crcEncode`), so `CDET.C` and `ECRUN.C` report DetectionFailure. -/
theorem crcDetectsEverySingleFlip : Obligations.CrcDetectsEverySingleFlip := by
  unfold Obligations.CrcDetectsEverySingleFlip
  exact ⟨fun d => crcDetect_crcEncode, fun d e => crcDetect_flipBit_crcEncode, fun s t => exec_cdetC_drk,
    fun s t => exec_ecrunC_drk⟩

end Sys2Proof.Machine
end

section
/-! PROOF. The statements of 43_fault_injector.md: the flip of one bit (O48), the command `INJ` (O49), and the count of the
draws (O51). -/

namespace Sys2Proof.Machine

/-! ### The flip of one bit -/

@[simp] theorem getElem?_flipBit_same (f : List Bit) (p : Nat) : (flipBit f p)[p]? = f[p]?.map not :=
  List.getElem?_modify_eq ..

theorem getElem?_flipBit_of_ne (f : List Bit) {p i : Nat} (h : i ≠ p) : (flipBit f p)[i]? = f[i]? :=
  List.getElem?_modify_ne _ _ h.symm

/-- Settles O48: each part is a law of `flipBit` that holds of every index. -/
theorem flipChangesOneBit : Obligations.FlipChangesOneBit := by
  unfold Obligations.FlipChangesOneBit
  exact fun f p _ =>
    ⟨length_flipBit f p, getElem?_flipBit_same f p, fun i => getElem?_flipBit_of_ne f, flipBit_flipBit f p⟩

/-! ### The command `INJ` -/

theorem exec_inj (s : State) : exec .inj s = execInj s := rfl

theorem indexSource_of_det {s : State} (hdet : s.det = true) (n : Nat) : indexSource n s = s.ridx.toNat := by
  simp only [indexSource, hdet, if_true]

theorem execInj_of_no_frame {s : State} (hk : s.efk = .none) : execInj s = .next (failedInj .invalidInput s) := by
  obtain ⟨-, e⟩ | ⟨hframe, -⟩ | ⟨hframe, -⟩ := execInj_cases s
  · exact e
  · exact absurd hk hframe
  · exact absurd hk hframe

theorem execInj_of_index {s : State} {p : Nat} (hk : s.efk ≠ .none) (hindex : indexSource s.ef.length s = p)
    (hp : p < s.ef.length) :
    execInj s = .next { s with
      cf := flipBit s.ef p, cfk := s.efk, epos := p, dr := [], drk := .none, errc := .none, done := true,
      draws := (countDraw s).draws } := by
  subst hindex
  obtain ⟨hnone, -⟩ | ⟨-, hrange, -⟩ | ⟨-, -, e⟩ := execInj_cases s
  · exact absurd hnone hk
  · exact absurd hrange (Nat.not_le.mpr hp)
  · exact e

/-- Settles O49: with a frame, `execInj_of_index` at the index of `RIDX` or of the draw, which the contract of the random
source keeps below the length; with none, `execInj_of_no_frame`. -/
theorem injMeaning : Obligations.InjMeaning := by
  unfold Obligations.InjMeaning
  refine ⟨rfl, fun s hk hdet hp => ?_, fun s hk hdet hlen => ?_, fun s hk => ?_⟩
  · rw [exec_inj, execInj_of_index hk (indexSource_of_det hdet _) hp, countDraw_of_det hdet]
  · have hp := indexSource_random hdet hlen
    refine ⟨_, hp, ?_⟩
    rw [exec_inj, execInj_of_index hk rfl hp, countDraw_draws, hdet]
    rfl
  · exact (exec_inj s).trans (execInj_of_no_frame hk)

/-! ### The count of the draws -/

/-- The count after a `PickIndex` that is reached on the condition `q` (R102). -/
theorem countDraw_draws_of_reached {q : Prop} [Decidable q] (hq : q) (s : State) :
    (countDraw s).draws = s.draws + if s.det = false ∧ q then 1 else 0 := by
  rw [countDraw_draws]
  cases s.det <;> simp [hq]

/-- `INJ` reaches `PickIndex` exactly with a frame in `EF` (R103). -/
theorem execInj_draws {s t : State} (h : execInj s = .next t) :
    t.draws = s.draws + if s.det = false ∧ s.efk ≠ .none then 1 else 0 := by
  obtain ⟨hk, e⟩ | ⟨hk, -, e⟩ | ⟨hk, -, e⟩ := execInj_cases s <;> rw [e] at h <;> cases h
  · simp [hk]
  · exact countDraw_draws_of_reached hk s
  · exact countDraw_draws_of_reached hk s

@[simp] theorem writeResult_draws (r : DecodeResult) (s : State) : (writeResult r s).draws = s.draws := by
  cases r <;> rfl

/-- A run of a known method reaches `PickIndex` exactly with a valid input (R105). -/
theorem execEcrun_draws {meth : BitVec 4} {s t : State} (hm : methodOf meth.toNat ≠ none)
    (h : execEcrun meth s = .next t) :
    t.draws = s.draws + if s.det = false ∧ ValidInput s then 1 else 0 := by
  obtain ⟨hv, e⟩ | ⟨-, hnone, -⟩ | ⟨hv, m, f, p, -, -, -, ⟨-, e⟩ | ⟨-, c, -, e⟩ | ⟨-, r, -, e⟩⟩ :=
    execEcrun_cases meth s
  · rw [e] at h; cases h
    rw [if_neg fun hdraw => hv hdraw.2, Nat.add_zero]
  · exact absurd hnone hm
  · rw [e] at h; cases h
    exact countDraw_draws_of_reached hv s
  · rw [e] at h; cases h
    exact countDraw_draws_of_reached hv s
  · rw [e] at h; cases h
    exact (writeResult_draws r _).trans (countDraw_draws_of_reached hv s)

theorem exec_of_runs {i : Instr} (hi : i ∈ [.ecrunH, .ecrunC]) (s : State) :
    ∃ meth, methodOf meth.toNat ≠ none ∧ exec i s = execEcrun meth s := by
  simp only [List.mem_cons, List.not_mem_nil, or_false] at hi
  rcases hi with rfl | rfl
  exacts [⟨0, nofun, rfl⟩, ⟨1, nofun, rfl⟩]

/-- Every other command makes no draw. -/
theorem exec_draws_of_no_injection {i : Instr} {s t : State} (hinj : i ≠ .inj) (hrun : i ∉ [.ecrunH, .ecrunC])
    (h : exec i s = .next t) : t.draws = s.draws := by
  obtain ⟨-, e⟩ | ⟨-, tech, e⟩ | ⟨hi, -⟩ | ⟨-, meth, e⟩ | ⟨-, src, meth, e⟩ | ⟨hi, -⟩ := exec_by_group i s
  · rw [e] at h; cases h; rfl
  · rw [execLenc_writes (e.symm.trans h)]
  · exact absurd hi hrun
  · rw [execEcenc_writes (e.symm.trans h)]
  · rw [execEcdec_writes (e.symm.trans h)]
  · exact absurd hi hinj

/-- Settles O51: `INJ` by `execInj_draws`, the runs by `execEcrun_draws`, the others by `exec_draws_of_no_injection`. -/
theorem oneDrawPerInjection : Obligations.OneDrawPerInjection := by
  unfold Obligations.OneDrawPerInjection
  intro i s t h
  by_cases hinj : i = .inj
  · subst hinj
    simpa using execInj_draws h
  by_cases hrun : i ∈ [.ecrunH, .ecrunC]
  · obtain ⟨meth, hm, e⟩ := exec_of_runs hrun s
    simpa only [hinj, hrun, false_and, true_and, false_or] using execEcrun_draws hm (e.symm.trans h)
  · have hdraws := exec_draws_of_no_injection hinj hrun h
    simpa only [hinj, hrun, false_and, false_or, and_false, if_false, Nat.add_zero] using hdraws

end Sys2Proof.Machine
end

section
/-! PROOF. The statements of 44_composite_and_control.md: the runs `ECRUN.H` and `ECRUN.C` (O53, O54), their equality with
encode, inject and decode in turn (O55), `CLR` (O56), and the independence of waveform and run (O57). -/

namespace Sys2Proof.Machine

/-! ### The outcomes of a composite run -/

/-- What a method's decoder makes of the method's own frame of `d` with one bit flipped (R106, R107). -/
def flippedResult : Method → List Bit → DecodeResult
  | .ham, d => .frame (hamEncode d)
  | .crc, _ => .detectionFailure

theorem decodeFrame_flipBit_encodeFrame {m : Method} {d : List Bit} {p : Nat} (hd : 1 ≤ d.length)
    (hp : p < (encodeFrame m d).length) :
    decodeFrame m (flipBit (encodeFrame m d) p) = .ok (flippedResult m d) := by
  cases m with
  | ham => exact decodeFrame_ham (hamCorrect_flipBit_hamEncode hp)
  | crc => exact crcDetect_flipBit_crcEncode hd hp

/-- The state `s` with everything that a run on `d` with index `p` writes when it succeeds (R105). -/
abbrev completedRun (m : Method) (d : List Bit) (p : Nat) (s : State) : State :=
  setStatus .none (writeResult (flippedResult m d)
    (writeCf m.kind (flipBit (encodeFrame m d) p) p (writeEf m.kind (encodeFrame m d) s)))

/-- A run on a valid input fails at the index or not at all: the decoder always ends on a frame with one bit flipped. -/
theorem execEcrun_valid_cases {meth : BitVec 4} {m : Method} {s : State} {n p : Nat} (hv : ValidInput s)
    (hm : methodOf meth.toNat = some m) (hn : (encodeFrame m (inputBits s)).length = n)
    (hindex : indexSource n s = p) :
    (n ≤ p ∧ execEcrun meth s = .next (failedEncode .indexRange (countDraw s))) ∨
    (p < n ∧ execEcrun meth s = .next (completedRun m (inputBits s) p (countDraw s))) := by
  subst hn hindex
  obtain ⟨hinvalid, -⟩ | ⟨-, hnone, -⟩ | ⟨-, m', f, p, hm', rfl, rfl, hrun⟩ := execEcrun_cases meth s
  · exact absurd hv hinvalid
  · cases hm.symm.trans hnone
  · cases hm.symm.trans hm'
    obtain hrange | ⟨hp, c, hc, -⟩ | ⟨hp, r, hr, e⟩ := hrun
    · exact .inl hrange
    · cases (decodeFrame_flipBit_encodeFrame hv.one_le_length hp).symm.trans hc
    · cases (decodeFrame_flipBit_encodeFrame hv.one_le_length hp).symm.trans hr
      exact .inr ⟨hp, e⟩

theorem execEcrun_of_index {meth : BitVec 4} {m : Method} {s : State} {n p : Nat} (hv : ValidInput s)
    (hm : methodOf meth.toNat = some m) (hn : (encodeFrame m (inputBits s)).length = n)
    (hindex : indexSource n s = p) (hp : p < n) :
    execEcrun meth s = .next (completedRun m (inputBits s) p (countDraw s)) := by
  obtain ⟨hrange, -⟩ | ⟨-, e⟩ := execEcrun_valid_cases hv hm hn hindex
  · exact absurd hrange (Nat.not_le.mpr hp)
  · exact e

/-- A run in deterministic mode, at the index of `RIDX` (R102). -/
theorem execEcrun_of_det {meth : BitVec 4} {m : Method} {s : State} {n : Nat} (hv : ValidInput s)
    (hm : methodOf meth.toNat = some m) (hn : (encodeFrame m (inputBits s)).length = n) (hdet : s.det = true)
    (hp : s.ridx.toNat < n) :
    execEcrun meth s = .next (completedRun m (inputBits s) s.ridx.toNat s) := by
  rw [execEcrun_of_index hv hm hn (indexSource_of_det hdet n) hp, countDraw_of_det hdet]

theorem countDraw_of_random {s : State} (hdet : s.det = false) : countDraw s = { s with draws := s.draws + 1 } := by
  rw [countDraw_eq, countDraw_draws, hdet]
  rfl

/-- A run in random mode, at an index that the contract of the random source keeps below the length (R102). -/
theorem execEcrun_of_random {meth : BitVec 4} {m : Method} {s : State} {n : Nat} (hv : ValidInput s)
    (hm : methodOf meth.toNat = some m) (hn : (encodeFrame m (inputBits s)).length = n) (hdet : s.det = false) :
    ∃ p < n, execEcrun meth s = .next (completedRun m (inputBits s) p { s with draws := s.draws + 1 }) := by
  have hlen : 1 ≤ n := hn ▸ hv.one_le_length.trans (length_encodeFrame_ge m _)
  have hp := indexSource_random hdet hlen
  refine ⟨_, hp, ?_⟩
  rw [execEcrun_of_index hv hm hn rfl hp, countDraw_of_random hdet]

/-! ### The commands `ECRUN.H` and `ECRUN.C` -/

/-- Settles O53: group `ECRUN` with the Hamming codec, whose frame is `RH(L)` bits longer than the input. -/
theorem ecrunHMeaning : Obligations.EcrunHMeaning := by
  unfold Obligations.EcrunHMeaning
  have hlen (s : State) : (encodeFrame .ham (inputBits s)).length = s.ilen + rh s.ilen := by
    rw [encodeFrame, length_hamEncode, length_inputBits]
  refine ⟨rfl, fun s hv hdet hp => ?_, fun s hv hdet => ?_, fun s hv => ?_⟩ <;> simp only [exec_ecrunH]
  · exact execEcrun_of_det hv rfl (hlen s) hdet hp
  · exact execEcrun_of_random hv rfl (hlen s) hdet
  · exact execEcrun_of_invalid hv

/-- Settles O54: group `ECRUN` with the CRC-8 codec, whose frame is 8 bits longer than the input. -/
theorem ecrunCMeaning : Obligations.EcrunCMeaning := by
  unfold Obligations.EcrunCMeaning
  have hlen (s : State) : (encodeFrame .crc (inputBits s)).length = s.ilen + 8 := by
    rw [encodeFrame, length_crcEncode, length_inputBits]
  refine ⟨rfl, fun s hv hdet hp => ?_, fun s hv hdet => ?_, fun s hv => ?_⟩ <;> simp only [exec_ecrunC]
  · exact execEcrun_of_det hv rfl (hlen s) hdet hp
  · exact execEcrun_of_random hv rfl (hlen s) hdet
  · exact execEcrun_of_invalid hv

/-! ### A run is its three commands in turn -/

/-- What a successful run of a known method was given, and the state it ends in (R105). -/
theorem execEcrun_succeeded {meth : BitVec 4} {m : Method} {s t : State} {n : Nat} (hm : methodOf meth.toNat = some m)
    (hn : (encodeFrame m (inputBits s)).length = n) (h : execEcrun meth s = .next t) (he : t.errc = .none) :
    ValidInput s ∧ indexSource n s < n ∧ t = completedRun m (inputBits s) (indexSource n s) (countDraw s) := by
  by_cases hv : ValidInput s
  · obtain ⟨-, e⟩ | ⟨hp, e⟩ := execEcrun_valid_cases hv hm hn rfl <;> rw [e] at h <;> cases h
    · cases he
    · exact ⟨hv, hp, rfl⟩
  · rw [execEcrun_of_invalid hv] at h
    cases h
    cases he

theorem Method.kind_ne_none (m : Method) : m.kind ≠ .none := by cases m <;> decide

/-- The encoder makes no draw, so the injector takes the index that the run takes, from the frame that the run builds. -/
theorem execEcrun_eq_three_commands {meth : BitVec 4} {dmeth : BitVec 3} {m : Method} {s t : State}
    (hm : methodOf meth.toNat = some m) (hdm : methodOf dmeth.toNat = some m) (h : execEcrun meth s = .next t)
    (he : t.errc = .none) :
    ∃ a b, execEcenc meth s = .next a ∧ execInj a = .next b ∧ execEcdec 0 dmeth b = .next t := by
  obtain ⟨hv, hp, rfl⟩ := execEcrun_succeeded hm rfl h he
  refine ⟨_, _, execEcenc_of_valid hv hm, execInj_of_index m.kind_ne_none rfl hp, ?_⟩
  rw [execEcdec_of_decoded (sourceFrame_cf rfl) hdm (decodeFrame_flipBit_encodeFrame hv.one_le_length hp),
    countDraw_eq s]
  simp only [countDraw_draws]
  cases m <;> rfl

/-- Settles O55: `execEcrun_eq_three_commands` for each method. -/
theorem compositeRunIsTheThreeCommands : Obligations.CompositeRunIsTheThreeCommands := by
  unfold Obligations.CompositeRunIsTheThreeCommands
  exact ⟨fun s t => execEcrun_eq_three_commands (meth := 0) (dmeth := 0) (m := .ham) rfl rfl,
    fun s t => execEcrun_eq_three_commands (meth := 1) (dmeth := 1) (m := .crc) rfl rfl⟩

/-! ### The command `CLR` -/

theorem exec_clr (s : State) : exec .clr s = .next { State.resetOf s.cfg with
    det := s.det, ridx := s.ridx, draws := s.draws, pending := s.pending, answers := s.answers } := rfl

theorem exec_of_ne_clr {i : Instr} {s t : State} (hi : i ≠ .clr) (h : exec i s = .next t) :
    t.inp = s.inp ∧ t.ilen = s.ilen ∧ t.done = true := by
  obtain ⟨-, -, -, -, -, hkept, -⟩ := eachBufferHasItsOwnWriters i s t h
  exact hkept hi

/-- Settles O56: the state by `exec_clr`, and what the other commands keep and set by `exec_of_ne_clr`. -/
theorem clrMeaning : Obligations.ClrMeaning := by
  unfold Obligations.ClrMeaning
  refine ⟨rfl, exec_clr, fun i s t h => ?_, fun s t h => ?_⟩
  · by_cases hi : i = .clr
    · subst hi
      cases h
      exact ⟨iff_of_true rfl rfl, absurd rfl⟩
    · obtain ⟨hinp, hilen, hdone⟩ := exec_of_ne_clr hi h
      exact ⟨iff_of_false (by simp [hdone]) hi, fun _ => ⟨hinp, hilen⟩⟩
  · cases h
    exact exec_clr _

/-! ### Waveform and run are independent -/

/-- The encoder writes only `WV` and `STATUS`, which no run reads; a run writes nothing that the encoder reads. -/
theorem execLenc_execEcrun_commute {tech meth : BitVec 4} {s a b c d : State} (hm : methodOf meth.toNat ≠ none)
    (ha : execLenc tech s = .next a) (hb : execEcrun meth a = .next b) (hc : execEcrun meth s = .next c)
    (hd : execLenc tech c = .next d) : { b with errc := d.errc, done := d.done } = d := by
  have ea := execLenc_writes ha
  have ec := execEcrun_writes hc
  have hvalid : validate a = validate s := by rw [ea]; rfl
  have hindex (n : Nat) : pickIndex n a = pickIndex n s := by rw [ea]; rfl
  have hvalid' : validate c = validate s := by rw [ec]; rfl
  obtain ⟨hwv, -⟩ := Prod.mk.inj ((execLenc_congr tech hvalid').part_eq hd ha)
  have hrun := (execEcrun_congr meth hvalid hindex).part_eq hb hc
  have hdraws : b.draws = c.draws := by
    rw [execEcrun_draws hm hb, execEcrun_draws hm hc, ea]
  simp only [Prod.mk.injEq] at hrun
  obtain ⟨hef, hefk, hcf, hcfk, hepos, hdr, hdrk, -⟩ := hrun
  rw [execEcrun_writes hb, ea, execLenc_writes hd, ec]
  simp only [hef, hefk, hcf, hcfk, hepos, hdr, hdrk, hdraws, hwv]

/-- A line-code command has one selector in all states (R58). -/
theorem exec_eq_execLenc {i : Instr} (hi : i ∈ lencCommands) : ∃ tech, exec i = execLenc tech := by
  simp only [lencCommands, List.mem_cons, List.not_mem_nil, or_false] at hi
  rcases hi with rfl | rfl | rfl | rfl | rfl | rfl | rfl
  exacts [⟨0, rfl⟩, ⟨1, rfl⟩, ⟨2, rfl⟩, ⟨3, rfl⟩, ⟨4, rfl⟩, ⟨5, rfl⟩, ⟨6, rfl⟩]

/-- Settles O57: `execLenc_execEcrun_commute` at the selector of the one command and the method of the other. -/
theorem waveformAndRunAreIndependent : Obligations.WaveformAndRunAreIndependent := by
  unfold Obligations.WaveformAndRunAreIndependent
  intro i j s a b c d hi hj ha hb hc hd
  obtain ⟨tech, e⟩ := exec_eq_execLenc hi
  rw [e] at ha hd
  simp only [List.mem_cons, List.not_mem_nil, or_false] at hj
  rcases hj with rfl | rfl
  · exact execLenc_execEcrun_commute (meth := 0) nofun ha hb hc hd
  · exact execLenc_execEcrun_commute (meth := 1) nofun ha hb hc hd

end Sys2Proof.Machine
end

section
/-! PROOF. The statements of 60_exceptions.md: the words that are no command (O4 to O6), the index out of range (O50), what
a failure writes (O58), which error is reported (O59), and that `SyndromeRange` never is (O60). -/

namespace Sys2Proof.Machine

/-! ### The code `SyndromeRange` -/

/-- The correction fails exactly on a syndrome beyond the frame (R87). -/
theorem hamCorrect_eq_syndromeRange_iff {f : List Bit} :
    hamCorrect f = .error .syndromeRange ↔ f.length < hamSyndrome f := by
  unfold hamCorrect
  split
  · next h => simp [h]
  · split
    · next hle => simp [hle]
    · next hgt => simpa using hgt

theorem execRejected_ne_syndromeRange {r : Rejection} {s t : State} (hs : s.Inv) (h : execRejected r s = .next t) :
    t.errc ≠ .syndromeRange := by
  cases r with
  | illegalCommand => cases h; simp
  | unsupportedTechnique tech => exact execLenc_ne_syndromeRange h
  | unsupportedRunMethod meth => exact execEcrun_ne_syndromeRange h
  | unsupportedEncodeMethod meth => exact execEcenc_ne_syndromeRange h
  | unsupportedDecodeMethod src meth => exact execEcdec_ne_syndromeRange hs h

theorem execWord_ne_syndromeRange {w : Word} {s t : State} (hs : s.Inv) (h : execWord w s = .next t) :
    t.errc ≠ .syndromeRange := by
  unfold execWord at h
  split at h
  · exact exec_ne_syndromeRange hs h
  · exact execRejected_ne_syndromeRange hs h

theorem hostStore_errc {a v : Word} {s t : State} (h : hostStore a v s = some t) : t.errc = s.errc := by
  obtain ⟨-, -, rfl⟩ | ⟨-, rfl⟩ | ⟨-, -, rfl⟩ | ⟨-, -, -, rfl⟩ := hostStore_cases h <;> rfl

/-- Settles O60: of the host's events a command word reports no `SyndromeRange` (`execWord_ne_syndromeRange`), a reset
clears the code and the others keep it. -/
theorem syndromeRangeCannotOccur : Obligations.SyndromeRangeCannotOccur := by
  unfold Obligations.SyndromeRangeCannotOccur
  refine ⟨fun f => hamCorrect_eq_syndromeRange_iff, fun s t hs hne h => ?_⟩
  obtain ⟨-, e⟩ | ⟨-, rest, -, ⟨a, -, e⟩ | ⟨a, v, u, -, -, hu, e⟩ | ⟨a, v, -, -, -, e⟩ | ⟨w, u, -, hu, e⟩ | ⟨-, e⟩⟩ :=
    step_cases s <;> rw [e] at h <;> cases h
  · exact hne
  · exact hne
  · rwa [answer_errc, hostStore_errc hu]
  · exact hne
  · rw [answer_errc]
    exact execWord_ne_syndromeRange (hs.outside ..) hu
  · simp

/-! ### What a word runs, group by group -/

theorem execWord_eq_execFields (w : Word) (s : State) :
    execWord w s = execFields (w.toNat / 256) (w.toNat / 16 % 16) (w.toNat % 16) s :=
  (decode_reads w).execWord_eq s

/-- The illegal class, by its fields (R64). -/
theorem execFields_of_illegal {rsv opc sel : Nat} (h : rsv ≠ 0 ∨ 6 ≤ opc ∨ (opc = 0 ∨ opc = 5) ∧ sel ≠ 0) (s : State) :
    execFields rsv opc sel s = execIllegal s := by
  by_cases hrsv : rsv = 0
  · subst hrsv
    obtain hrsv | hopc | ⟨rfl | rfl, hsel⟩ := h
    · exact absurd rfl hrsv
    · unfold execFields
      iterate 8 rw [if_neg (by omega)]
    · rw [execFields_ctl, if_neg hsel]
    · rw [execFields_inj, if_neg hsel]
  · exact if_pos hrsv

/-- A word without `RSV` bits runs by its group and its selector (R63). -/
theorem execWord_of_group {w : Word} {opc : Nat} (hopc : w.toNat / 16 = opc) (hlt : opc < 16) (s : State) :
    execWord w s = execFields 0 opc (fieldSel w).toNat s := by
  obtain ⟨-, -, hsel, -, -⟩ := toNat_fields w
  rw [execWord_eq_execFields, hsel, show w.toNat / 256 = 0 by omega, show w.toNat / 16 % 16 = opc by omega]

theorem execWord_lenc {w : Word} (h : w.toNat / 16 = 1) (s : State) : execWord w s = execLenc (fieldSel w) s :=
  (execWord_of_group h (by decide) s).trans (execFields_lenc _ s)

theorem execWord_ecrun {w : Word} (h : w.toNat / 16 = 2) (s : State) : execWord w s = execEcrun (fieldSel w) s :=
  (execWord_of_group h (by decide) s).trans (execFields_ecrun _ s)

theorem execWord_ecenc {w : Word} (h : w.toNat / 16 = 3) (s : State) : execWord w s = execEcenc (fieldSel w) s :=
  (execWord_of_group h (by decide) s).trans (execFields_ecenc _ s)

theorem execWord_ecdec {w : Word} {src : BitVec 1} (h : w.toNat / 16 = 4) (hsrc : w.toNat % 16 / 8 = src.toNat)
    (s : State) : execWord w s = execEcdec src (fieldDecodeMeth w) s := by
  obtain ⟨-, -, hsel, -, hmeth⟩ := toNat_fields w
  rw [execWord_of_group h (by decide)]
  exact execFields_ecdec (by rw [hsel, hsrc]) (by rw [hmeth, hsel]; omega) s

/-! ### Words that are no command -/

/-- Settles O4: each range is of the illegal class by its fields (`execFields_of_illegal`). -/
theorem illegalWordsWriteOnlyStatus : Obligations.IllegalWordsWriteOnlyStatus := by
  unfold Obligations.IllegalWordsWriteOnlyStatus
  intro w s h
  rw [execWord_eq_execFields]
  exact execFields_of_illegal (by omega) s

/-- The selectors from 7 on name no technique (R58). -/
theorem lineEncode_eq_none_iff {tech : BitVec 4} {b : List Bit} : lineEncode tech b = none ↔ 7 ≤ tech.toNat := by
  unfold lineEncode
  generalize tech.toNat = n
  match n with
  | 0 | 1 | 2 | 3 | 4 | 5 | 6 => exact iff_of_false nofun (by decide)
  | n + 7 => exact iff_of_true rfl (Nat.le_add_left 7 n)

theorem execLenc_of_unsupported {tech : BitVec 4} {s : State} (hv : ValidInput s) (ht : 7 ≤ tech.toNat) :
    execLenc tech s = .next { s with wv := [], errc := .unsupportedTechnique, done := true } := by
  simp only [execLenc, validate_of_valid hv, lineEncode_eq_none_iff.mpr ht]
  rfl

/-- Settles O5: the words are group `LENC` with a selector from 7 on. -/
theorem unsupportedTechniqueWords : Obligations.UnsupportedTechniqueWords := by
  unfold Obligations.UnsupportedTechniqueWords
  intro w s hlo hhi
  obtain ⟨-, -, hsel, -, -⟩ := toNat_fields w
  rw [execWord_lenc (by omega)]
  exact ⟨fun hv => execLenc_of_unsupported hv (by omega), execLenc_of_invalid⟩

/-- The selectors from 2 on name no method (R59). -/
theorem methodOf_eq_none {n : Nat} (h : 2 ≤ n) : methodOf n = none := by
  obtain ⟨k, rfl⟩ := Nat.exists_eq_add_of_le' h
  rfl

theorem execEcenc_of_unsupported {meth : BitVec 4} {s : State} (hv : ValidInput s) (hm : 2 ≤ meth.toNat) :
    execEcenc meth s = .next (failedEncode .unsupportedMethod s) := by
  simp only [execEcenc, validate_of_valid hv, methodOf_eq_none hm]
  rfl

theorem execEcrun_of_unsupported {meth : BitVec 4} {s : State} (hv : ValidInput s) (hm : 2 ≤ meth.toNat) :
    execEcrun meth s = .next (failedEncode .unsupportedMethod s) := by
  simp only [execEcrun, validate_of_valid hv, methodOf_eq_none hm]
  rfl

theorem execEcdec_of_unsupported {src : BitVec 1} {meth : BitVec 3} {s : State} {f : List Bit} {k : FrameKind}
    (hsrc : sourceFrame src s = (f, k)) (hk : k ≠ .none) (hm : 2 ≤ meth.toNat) :
    execEcdec src meth s = .next (failedDecode .unsupportedMethod s) := by
  simp only [execEcdec, hsrc, if_neg hk, methodOf_eq_none hm]
  rfl

/-- Settles O6: the words are groups `ECRUN`, `ECENC` and `ECDEC` with a method from 2 on, and each group tests its source
before the method. -/
theorem unsupportedMethodWords : Obligations.UnsupportedMethodWords := by
  unfold Obligations.UnsupportedMethodWords
  intro w s
  obtain ⟨-, -, hsel, -, hmeth⟩ := toNat_fields w
  refine ⟨?_, fun h => ?_, fun h => ?_⟩
  · rintro (h | h)
    · rw [execWord_ecrun (by omega)]
      exact ⟨fun hv => execEcrun_of_unsupported hv (by omega), execEcrun_of_invalid⟩
    · rw [execWord_ecenc (by omega)]
      exact ⟨fun hv => execEcenc_of_unsupported hv (by omega), execEcenc_of_invalid⟩
  · rw [execWord_ecdec (src := 0) (by omega) (show w.toNat % 16 / 8 = 0 by omega)]
    exact ⟨fun hk => execEcdec_of_unsupported (sourceFrame_cf rfl) hk (by omega),
      fun hk => execEcdec_of_no_frame (sourceFrame_cf hk)⟩
  · rw [execWord_ecdec (src := 1) (by omega) (show w.toNat % 16 / 8 = 1 by omega)]
    exact ⟨fun hk => execEcdec_of_unsupported (sourceFrame_ef rfl) hk (by omega),
      fun hk => execEcdec_of_no_frame (sourceFrame_ef hk)⟩

/-! ### The index out of range -/

theorem pickIndex_of_lt {n : Nat} {s : State} (h : indexSource n s < n) : pickIndex n s = .ok (indexSource n s) :=
  if_neg (Nat.not_le.mpr h)

theorem pickIndex_of_le {n : Nat} {s : State} (h : n ≤ indexSource n s) : pickIndex n s = .error .indexRange :=
  if_pos h

/-- Only the index of `RIDX` can be out of range: the contract of the random source excludes its own (R102). -/
theorem le_indexSource_iff {n : Nat} {s : State} (hn : 1 ≤ n) :
    n ≤ indexSource n s ↔ s.det = true ∧ n ≤ s.ridx.toNat := by
  cases hdet : s.det with
  | true => simp [indexSource_of_det hdet]
  | false => simpa using indexSource_random hdet hn

theorem execInj_of_range {s : State} (hk : s.efk ≠ .none) (hdet : s.det = true) (h : s.ef.length ≤ s.ridx.toNat) :
    execInj s = .next (failedInj .indexRange s) := by
  have hindex : s.ef.length ≤ indexSource s.ef.length s := by rwa [indexSource_of_det hdet]
  simp only [execInj, if_neg hk, pickIndex_of_le hindex, countDraw_of_det hdet]
  rfl

theorem execEcrun_of_range {meth : BitVec 4} {m : Method} {s : State} {n : Nat} (hv : ValidInput s)
    (hm : methodOf meth.toNat = some m) (hn : (encodeFrame m (inputBits s)).length = n) (hdet : s.det = true)
    (h : n ≤ s.ridx.toNat) : execEcrun meth s = .next (failedEncode .indexRange s) := by
  obtain ⟨-, e⟩ | ⟨hp, -⟩ := execEcrun_valid_cases hv hm hn (indexSource_of_det hdet n)
  · rw [e, countDraw_of_det hdet]
  · exact absurd h (Nat.not_le.mpr hp)

theorem length_encodeFrame_ham (s : State) : (encodeFrame .ham (inputBits s)).length = s.ilen + rh s.ilen := by
  rw [encodeFrame, length_hamEncode, length_inputBits]

theorem length_encodeFrame_crc (s : State) : (encodeFrame .crc (inputBits s)).length = s.ilen + 8 := by
  rw [encodeFrame, length_crcEncode, length_inputBits]

/-- Settles O50: the index is `RIDX` in deterministic mode and a draw below the length in random mode; `INJ` and the runs
at an index out of range. -/
theorem indexRangeIsReported : Obligations.IndexRangeIsReported := by
  unfold Obligations.IndexRangeIsReported
  refine ⟨fun n s hdet => ?_, fun n s hdet hn => ?_, fun s hk hdet h => ?_, fun s hv hdet h => ?_, fun s hv hdet h => ?_⟩
  · rw [← indexSource_of_det hdet n]
    exact ⟨pickIndex_of_lt, pickIndex_of_le⟩
  · have hlt := indexSource_random hdet hn
    exact ⟨_, hlt, pickIndex_of_lt hlt⟩
  · exact (exec_inj s).trans (execInj_of_range hk hdet h)
  · exact (exec_ecrunH s).trans (execEcrun_of_range hv rfl (length_encodeFrame_ham s) hdet h)
  · exact (exec_ecrunC s).trans (execEcrun_of_range hv rfl (length_encodeFrame_crc s) hdet h)

/-! ### What a failure writes -/

theorem execLenc_failed {tech : BitVec 4} {s t : State} (h : execLenc tech s = .next t) (he : t.errc ≠ .none) :
    t = { s with wv := [], errc := t.errc, done := true } := by
  obtain ⟨-, w, -, e⟩ | ⟨-, -, e⟩ | ⟨-, e⟩ := execLenc_cases tech s <;> rw [e] at h <;> cases h
  · exact absurd rfl he
  · rfl
  · rfl

theorem execEcenc_failed {meth : BitVec 4} {s t : State} (h : execEcenc meth s = .next t) (he : t.errc ≠ .none) :
    t = failedEncode t.errc s := by
  obtain ⟨-, m, -, e⟩ | ⟨-, -, e⟩ | ⟨-, e⟩ := execEcenc_cases meth s <;> rw [e] at h <;> cases h
  · exact absurd rfl he
  · rfl
  · rfl

theorem execEcdec_failed {src : BitVec 1} {meth : BitVec 3} {s t : State} (h : execEcdec src meth s = .next t)
    (he : t.errc ≠ .none) : t = failedDecode t.errc s := by
  obtain ⟨-, e⟩ | ⟨-, -, e⟩ | ⟨-, m, -, ⟨-, e⟩ | ⟨-, c, -, e⟩ | ⟨-, r, -, e⟩⟩ :=
    execEcdec_cases src meth s (f := (sourceFrame src s).1) (k := (sourceFrame src s).2) rfl <;>
    rw [e] at h <;> cases h
  case inr.inr.inr.inr => exact absurd rfl he
  all_goals rfl

theorem execInj_failed {s t : State} (h : execInj s = .next t) (he : t.errc ≠ .none) :
    t = { failedInj t.errc s with draws := t.draws } := by
  obtain ⟨-, e⟩ | ⟨-, -, e⟩ | ⟨-, -, e⟩ := execInj_cases s <;> rw [e] at h <;> cases h
  · rfl
  · rw [countDraw_eq]
  · exact absurd rfl he

theorem execEcrun_failed {meth : BitVec 4} {s t : State} (h : execEcrun meth s = .next t) (he : t.errc ≠ .none) :
    t = { failedEncode t.errc s with draws := t.draws } := by
  obtain ⟨-, e⟩ | ⟨-, -, e⟩ | ⟨-, m, f, p, -, -, -, ⟨-, e⟩ | ⟨-, c, -, e⟩ | ⟨-, r, -, e⟩⟩ :=
    execEcrun_cases meth s <;> rw [e] at h <;> cases h
  · rfl
  · rfl
  · rw [countDraw_eq]
  · rw [countDraw_eq]
  · exact absurd rfl he

/-- Settles O58, by the `_failed` lemma of each group. -/
theorem failuresOnlyEmptyTheDestination : Obligations.FailuresOnlyEmptyTheDestination := by
  unfold Obligations.FailuresOnlyEmptyTheDestination
  refine fun i s t h he => ⟨fun hi => ?_, fun hi => ?_, ?_, fun hi => ?_, ?_⟩
  · obtain ⟨tech, e⟩ := exec_of_lencCommands hi s
    exact execLenc_failed (e.symm.trans h) he
  · obtain ⟨meth, e⟩ | ⟨-, meth, e⟩ := exec_of_encoders_or_runs hi s
    · rw [execEcenc_failed (e.symm.trans h) he]
    · exact execEcrun_failed (e.symm.trans h) he
  · rintro rfl
    exact execInj_failed h he
  · obtain ⟨src, meth, e⟩ := exec_of_decoders hi s
    exact execEcdec_failed (e.symm.trans h) he
  · rintro rfl
    cases h
    exact he rfl

/-! ### The error each group reports -/

theorem execLenc_errc {tech : BitVec 4} {s t : State} (ht : tech.toNat < 7) (h : execLenc tech s = .next t) :
    t.errc = if ValidInput s then .none else .invalidInput := by
  obtain ⟨hv, w, -, e⟩ | ⟨-, hnone, -⟩ | ⟨hv, e⟩ := execLenc_cases tech s
  · rw [e] at h; cases h
    exact (if_pos hv).symm
  · exact absurd (lineEncode_eq_none_iff.mp hnone) (Nat.not_le.mpr ht)
  · rw [e] at h; cases h
    exact (if_neg hv).symm

theorem execEcenc_errc {meth : BitVec 4} {s t : State} (hm : methodOf meth.toNat ≠ none)
    (h : execEcenc meth s = .next t) : t.errc = if ValidInput s then .none else .invalidInput := by
  obtain ⟨hv, m, -, e⟩ | ⟨-, hnone, -⟩ | ⟨hv, e⟩ := execEcenc_cases meth s
  · rw [e] at h; cases h
    exact (if_pos hv).symm
  · exact absurd hnone hm
  · rw [e] at h; cases h
    exact (if_neg hv).symm

/-- A run's decoder does not fail, so past the input only the index is left to fail (`execEcrun_valid_cases`). -/
theorem execEcrun_errc {meth : BitVec 4} {m : Method} {s t : State} {n : Nat} (hm : methodOf meth.toNat = some m)
    (hn : (encodeFrame m (inputBits s)).length = n) (h : execEcrun meth s = .next t) :
    t.errc = if ¬ ValidInput s then .invalidInput
      else if s.det = true ∧ n ≤ s.ridx.toNat then .indexRange else .none := by
  by_cases hv : ValidInput s
  · rw [if_neg (not_not.mpr hv)]
    have hlen : 1 ≤ n := hn ▸ hv.one_le_length.trans (length_encodeFrame_ge m _)
    simp only [← le_indexSource_iff hlen]
    obtain ⟨hp, e⟩ | ⟨hp, e⟩ := execEcrun_valid_cases hv hm hn rfl <;> rw [e] at h <;> cases h
    · exact (if_pos hp).symm
    · exact (if_neg (Nat.not_le.mpr hp)).symm
  · rw [execEcrun_of_invalid hv] at h
    cases h
    exact (if_pos hv).symm

theorem execInj_errc {s t : State} (hs : s.Inv) (h : execInj s = .next t) :
    t.errc = if s.efk = .none then .invalidInput
      else if s.det = true ∧ s.ef.length ≤ s.ridx.toNat then .indexRange else .none := by
  by_cases hk : s.efk = .none
  · rw [execInj_of_no_frame hk] at h
    cases h
    exact (if_pos hk).symm
  · rw [if_neg hk]
    simp only [← le_indexSource_iff (Nat.pos_of_ne_zero (mt hs.efEmpty.mpr hk))]
    obtain ⟨hnone, -⟩ | ⟨-, hp, e⟩ | ⟨-, hp, e⟩ := execInj_cases s
    · exact absurd hnone hk
    · rw [e] at h; cases h
      exact (if_pos hp).symm
    · rw [e] at h; cases h
      exact (if_neg (Nat.not_le.mpr hp)).symm

/-- The method's decoder ends on every frame of the method that a state holds (R91, R92, R99, R100). -/
theorem State.Inv.exists_decodeFrame_eq_ok {s : State} (hs : s.Inv) {src : BitVec 1} {m : Method} {f : List Bit}
    (hsrc : sourceFrame src s = (f, m.kind)) : ∃ r, decodeFrame m f = .ok r := by
  obtain e | e := sourceFrame_cases src s <;> obtain ⟨rfl, hk⟩ := Prod.mk.inj (e.symm.trans hsrc) <;> cases m
  · exact ⟨_, decodeFrame_ham (hs.hamCorrect_cf hk)⟩
  · exact ⟨_, hs.crcDetect_cf hk⟩
  · exact ⟨_, decodeFrame_ham (hs.hamCorrect_ef hk)⟩
  · obtain ⟨d, hd, -, hef⟩ := hs.efCrc hk
    exact ⟨_, crcDetect_eq_data_iff.mpr ⟨hd, hef⟩⟩

theorem Method.kind_injective : Function.Injective Method.kind := by
  intro m m' h
  cases m <;> cases m' <;> revert h <;> decide

/-- A frame is of the decoder's method `m` or of the other one, `m'`. -/
theorem FrameKind.cases_of_methods {m m' : Method} (hne : m' ≠ m) (k : FrameKind) :
    k = .none ∨ k = m.kind ∨ k = m'.kind := by
  revert hne
  cases m <;> cases m' <;> cases k <;> decide

/-- A decoder checks that its source has a frame and that the frame is not of the other method `m'`; then it ends. -/
theorem execEcdec_errc {src : BitVec 1} {meth : BitVec 3} {m m' : Method} {s t : State} {f : List Bit} {k : FrameKind}
    (hs : s.Inv) (hsrc : sourceFrame src s = (f, k)) (hm : methodOf meth.toNat = some m) (hne : m' ≠ m)
    (h : execEcdec src meth s = .next t) :
    t.errc = if k = .none then .invalidInput else if k = m'.kind then .kindMismatch else .none := by
  have hkinds : m'.kind ≠ m.kind := Method.kind_injective.ne hne
  obtain rfl | rfl | rfl := k.cases_of_methods hne
  · rw [execEcdec_of_no_frame hsrc] at h
    cases h
    rfl
  · obtain ⟨r, hr⟩ := hs.exists_decodeFrame_eq_ok hsrc
    rw [execEcdec_of_decoded hsrc hm hr] at h
    cases h
    rw [if_neg m.kind_ne_none, if_neg hkinds.symm]
    rfl
  · rw [execEcdec_of_other_kind hsrc hm m'.kind_ne_none hkinds] at h
    cases h
    rw [if_neg m'.kind_ne_none, if_pos rfl]

/-! ### The error each command reports -/

theorem exec_errc_of_lencCommands {i : Instr} {s t : State} (hi : i ∈ lencCommands) (h : exec i s = .next t) :
    t.errc = if ValidInput s then .none else .invalidInput := by
  obtain ⟨tech, ht, e⟩ : ∃ tech : BitVec 4, tech.toNat < 7 ∧ exec i s = execLenc tech s := by
    simp only [lencCommands, List.mem_cons, List.not_mem_nil, or_false] at hi
    rcases hi with rfl | rfl | rfl | rfl | rfl | rfl | rfl
    exacts [⟨0, by decide, rfl⟩, ⟨1, by decide, rfl⟩, ⟨2, by decide, rfl⟩, ⟨3, by decide, rfl⟩, ⟨4, by decide, rfl⟩,
      ⟨5, by decide, rfl⟩, ⟨6, by decide, rfl⟩]
  exact execLenc_errc ht (e.symm.trans h)

theorem exec_errc_of_encoders {i : Instr} {s t : State} (hi : i ∈ [.henc, .cenc]) (h : exec i s = .next t) :
    t.errc = if ValidInput s then .none else .invalidInput := by
  simp only [List.mem_cons, List.not_mem_nil, or_false] at hi
  rcases hi with rfl | rfl
  · exact execEcenc_errc (meth := 0) nofun h
  · exact execEcenc_errc (meth := 1) nofun h

/-- Settles O59, by the `_errc` lemma of each group at the command's selector. -/
theorem firstFailingCheckIsReported : Obligations.FirstFailingCheckIsReported := by
  unfold Obligations.FirstFailingCheckIsReported
  refine fun i s t hs h => ⟨?clr, fun hi => ?input, ?ecrunH, ?ecrunC, ?inj, ?hcorC, ?cdetC, ?hcorE, ?cdetE⟩
  case input =>
    obtain hi | hi := List.mem_append.mp hi
    · exact exec_errc_of_lencCommands hi h
    · exact exec_errc_of_encoders hi h
  all_goals rintro rfl
  case clr => cases h; rfl
  case ecrunH => exact execEcrun_errc (meth := 0) rfl (length_encodeFrame_ham s) h
  case ecrunC => exact execEcrun_errc (meth := 1) rfl (length_encodeFrame_crc s) h
  case inj => exact execInj_errc hs h
  case hcorC => exact execEcdec_errc (meth := 0) (m := .ham) (m' := .crc) hs (sourceFrame_cf rfl) rfl nofun h
  case cdetC => exact execEcdec_errc (meth := 1) (m := .crc) (m' := .ham) hs (sourceFrame_cf rfl) rfl nofun h
  case hcorE => exact execEcdec_errc (meth := 0) (m := .ham) (m' := .crc) hs (sourceFrame_ef rfl) rfl nofun h
  case cdetE => exact execEcdec_errc (meth := 1) (m := .crc) (m' := .ham) hs (sourceFrame_ef rfl) rfl nofun h

end Sys2Proof.Machine
end

section
/-! PROOF. The statements of 70_reset_and_hazards.md: `RST` (O16), what the host reads right after it (O17), and that every
transaction is answered (O8). -/

namespace Sys2Proof.Machine

/-! ### Every event ends and takes nothing else -/

/-- What a step leaves to the host and to the instance: the parameters, the events still to come, the answers given. -/
structure HostSideKept (s t : State) : Prop where
  cfg : t.cfg = s.cfg
  pending : t.pending = s.pending
  answers : t.answers = s.answers

theorem HostSideKept.refl (s : State) : HostSideKept s s := ⟨rfl, rfl, rfl⟩

theorem Untouched.hostSideKept {s t : State} (h : Untouched s t) : HostSideKept s t := ⟨h.cfg, h.pending, h.answers⟩

theorem hostStore_hostSideKept {a v : Word} {s t : State} (h : hostStore a v s = some t) : HostSideKept s t := by
  obtain ⟨-, -, rfl⟩ | ⟨-, rfl⟩ | ⟨-, -, rfl⟩ | ⟨-, -, -, rfl⟩ := hostStore_cases h <;> exact ⟨rfl, rfl, rfl⟩

/-- A write is answered once, whether it runs a command, stores a value or is refused (R47). -/
theorem hostWrite_next (a v : Word) (s : State) :
    ∃ r t, hostWrite a v s = .next (answer r t) ∧ HostSideKept s t := by
  by_cases ha : a = 0x0000#16
  · subst ha
    obtain ⟨t, ht, hsame⟩ := execWord_next v s
    exact ⟨.ok, t, hostWrite_cmd ht, hsame.hostSideKept⟩
  · cases hs : hostStore a v s with
    | some t => exact ⟨.ok, t, hostWrite_stored ha hs, hostStore_hostSideKept hs⟩
    | none => exact ⟨.err, s, hostWrite_refused ha hs, .refl s⟩

/-- A transaction is answered once; `RST` is none and has no answer (R128, R134). -/
theorem perform_next (e : HostEvent) (s : State) :
    (e = .rst ∧ perform e s = .next (applyReset s)) ∨
    (e ≠ .rst ∧ ∃ r t, perform e s = .next (answer r t) ∧ HostSideKept s t) := by
  cases e with
  | read a => exact .inr ⟨nofun, hostRead a s, s, rfl, .refl s⟩
  | write a v => exact .inr ⟨nofun, hostWrite_next a v s⟩
  | rst => exact .inl ⟨rfl, rfl⟩

/-- Settles O8: a step performs the next event, and `perform_next` gives its outcome. -/
theorem everyTransactionIsAnswered : Obligations.EveryTransactionIsAnswered := by
  unfold Obligations.EveryTransactionIsAnswered
  refine ⟨fun s hp => by simp only [step, hp], fun s e rest hp => ?_⟩
  rw [step_of_pending hp]
  obtain ⟨he, h⟩ | ⟨he, r, t, h, hkept⟩ := perform_next e { s with pending := rest }
  · exact ⟨_, h, rfl, rfl, fun _ => rfl, fun hne => absurd he hne⟩
  · refine ⟨_, h, hkept.pending, hkept.cfg, fun hrst => absurd hrst he, fun _ => ⟨r, ?_⟩⟩
    rw [answer_answers, hkept.answers]

/-! ### The reset event and the reset state -/

/-- Settles O16: the step is `applyReset`, each field of which is fixed by its own equation. -/
theorem resetEventIsConstant : Obligations.ResetEventIsConstant := by
  unfold Obligations.ResetEventIsConstant
  intro s rest hp
  exact ⟨applyReset { s with pending := rest }, step_of_pending hp, fun _ => rfl, by simp⟩

theorem statusWord_resetOf (c : Config) : statusWord (State.resetOf c) = 0x0000#16 :=
  BitVec.eq_of_toNat_eq (toNat_statusWord _)

theorem ctrlWord_resetOf (c : Config) : ctrlWord (State.resetOf c) = 0x0000#16 := ctrlWord_eq _

theorem kindWord_resetOf (c : Config) : kindWord (State.resetOf c) = 0x0000#16 :=
  BitVec.eq_of_toNat_eq (toNat_kindWord _)

/-- Every register but `CMD`, which is write-only, reads 0 after reset. -/
theorem registerRead_resetOf (c : Config) {n : Nat} (h1 : 1 ≤ n) (h2 : n ≤ 0x000A) :
    registerRead n (State.resetOf c) = .okv 0x0000#16 := by
  simp only [registerRead, statusWord_resetOf, ctrlWord_resetOf, kindWord_resetOf]
  interval_cases n <;> rfl

/-- Every cell of `IN` reads 0 after reset. -/
theorem inputRead_resetOf {c : Config} {k : Nat} (h : k < c.nmax) :
    inputRead k (State.resetOf c) = .okv 0x0000#16 :=
  if_pos h

/-- No cell of an output window is mapped after reset. -/
theorem Window.mapped_resetOf (c : Config) {w : Window} (h : w ≠ .inp) : w.mapped (State.resetOf c) = 0 := by
  cases w
  case inp => exact absurd rfl h
  all_goals rfl

/-- Settles O17: the reset state meets the invariants (`inv_resetOf`), so each read is its register's or its window's. -/
theorem readsAfterReset : Obligations.ReadsAfterReset := by
  unfold Obligations.ReadsAfterReset
  intro c hc
  have hinv := inv_resetOf hc
  refine ⟨hinv, fun a h1 h2 => ?registers, fun a h1 h2 => ?input, fun a h1 h2 => ?outputs⟩
  case registers =>
    rw [hostRead_by_window hinv, if_pos (by omega), registerRead_resetOf c h1 h2]
  case input =>
    have hk : a.toNat - 0x1000 < c.nmax := by omega
    have hn := hc.2
    rw [hostRead_window hinv .inp (k := a.toNat - 0x1000) (by simp only [Window.base]; omega) (by omega)]
    exact inputRead_resetOf hk
  case outputs =>
    obtain ⟨w, k, hk, ha⟩ := exists_window (n := a.toNat) (by omega) (by omega)
    have hw : w ≠ .inp := by rintro rfl; simp only [Window.base] at ha; omega
    rw [hostRead_window hinv w ha hk, Window.read_beyond (by rw [Window.mapped_resetOf c hw]; exact Nat.zero_le k)]

end Sys2Proof.Machine
end
